-- ==== Sys2Proof/Word.lean ====
section
/-! DEFINITION. The word types: bytes, 64-bit words (limbs) and limb arrays. -/

namespace Sys2Proof

/-- One byte lane of the host port (20_memory.md R57). -/
abbrev Byte := BitVec 8

/-- A 64-bit register value, which is also one limb (00_scope.md R6, 40_limb_helpers.md R100). -/
abbrev Word := BitVec 64

/-- A limb array of length 2, `[l0, l1]`; `l_i` has weight `2^(64 i)` (00_scope.md R10). -/
structure Limbs2 where
  l0 : Word
  l1 : Word
deriving DecidableEq, Repr

/-- A limb array of length 4, `[l0, l1, l2, l3]`; `l_i` has weight `2^(64 i)` (00_scope.md R10). -/
structure Limbs4 where
  l0 : Word
  l1 : Word
  l2 : Word
  l3 : Word
deriving DecidableEq, Repr

/-- `[0, 0]`. -/
def Limbs2.zero : Limbs2 := ⟨0, 0⟩

/-- `[0, 0, 0, 0]`. -/
def Limbs4.zero : Limbs4 := ⟨0, 0, 0, 0⟩

end Sys2Proof
end

