-- ==== Sys2Proof/Config.lean ====
section
/-! DEFINITION. The parameters of 00_scope.md R6, and the model's one free value. All parameters are fixed but `WINDOW_BASE`,
which the platform decides. LIMB_W and REG_W
are the width of `Word`; OPND_LIMBS and WIDE_LIMBS are the lengths of `Limbs2` and `Limbs4`; OPCODE_W and ERR_W are the widths
of the fields that carry them (00_scope.md R7 takes all of these as constants). -/

namespace Sys2Proof

/-- `DIV_ITERS` = 4 limbs x 64 bits (00_scope.md R6). -/
abbrev divIters : Nat := 256

/-- `RACC_W`, the width of the remainder accumulator (00_scope.md R6). -/
abbrev raccW : Nat := 129

/-- What `s.racc` holds after an iteration whose `r'` does not fit it. 42_divider.md R136 writes `s.racc` then too, but a 129-bit
field holds no such number (00_scope.md R8, R9), and R139 says it does not occur: a free value, applied to `r'` (log 9, DESIGN
CHOICE). -/
opaque unstatedRacc : Nat → BitVec raccW

/-- `WINDOW_SIZE` in bytes (00_scope.md R6). -/
abbrev windowSize : Nat := 0x100

/-- The one admitted access size in bytes, REG_W / 8 (00_scope.md R6, 20_memory.md R51). -/
abbrev accessBytes : Nat := 8

/-- What the platform fixes for one core. `WINDOW_BASE` is a multiple of 0x100 and otherwise open (00_scope.md R6,
20_memory.md R50, 93_implementation_defined.md W1), so the platform picks a slot number. -/
structure Config where
  windowSlot : Nat
deriving DecidableEq, Repr

/-- `WINDOW_BASE`, a multiple of `WINDOW_SIZE` by construction (20_memory.md R50). -/
def Config.windowBase (c : Config) : Nat := windowSize * c.windowSlot

end Sys2Proof
end

