-- ==== Sys2Proof/Machine/Window.lean ====
section
/-! DEFINITION. The register window: the names, offsets and access rights of 10_state.md R20. -/

namespace Sys2Proof.Machine

/-- The registers of the window (10_state.md R20). -/
inductive Reg where
  | a0 | a1 | b0 | b1 | dv0 | dv1
  | n0 | n1 | n2 | n3
  | p0 | p1 | p2 | p3
  | q0 | q1 | q2 | q3
  | rm0 | rm1
  | cmd | status
deriving DecidableEq, Repr

/-- The access rights of 10_state.md R20. -/
inductive Right where
  | rw | ro | wo
deriving DecidableEq, Repr

/-- A register's byte offset in the window (10_state.md R20). -/
def Reg.offset : Reg → Nat
  | .a0 => 0x00
  | .a1 => 0x08
  | .b0 => 0x10
  | .b1 => 0x18
  | .dv0 => 0x20
  | .dv1 => 0x28
  | .n0 => 0x30
  | .n1 => 0x38
  | .n2 => 0x40
  | .n3 => 0x48
  | .p0 => 0x50
  | .p1 => 0x58
  | .p2 => 0x60
  | .p3 => 0x68
  | .q0 => 0x70
  | .q1 => 0x78
  | .q2 => 0x80
  | .q3 => 0x88
  | .rm0 => 0x90
  | .rm1 => 0x98
  | .cmd => 0xA0
  | .status => 0xA8

/-- A register's access right (10_state.md R20). -/
def Reg.right : Reg → Right
  | .a0 | .a1 | .b0 | .b1 | .dv0 | .dv1 | .n0 | .n1 | .n2 | .n3 => .rw
  | .p0 | .p1 | .p2 | .p3 | .q0 | .q1 | .q2 | .q3 | .rm0 | .rm1 | .status => .ro
  | .cmd => .wo

/-- Every register of 10_state.md R20, in offset order. -/
def Reg.all : List Reg :=
  [.a0, .a1, .b0, .b1, .dv0, .dv1, .n0, .n1, .n2, .n3, .p0, .p1, .p2, .p3, .q0, .q1, .q2, .q3, .rm0, .rm1, .cmd,
    .status]

/-- The register an offset names, or none for an offset that R20 does not list. -/
def regAt (off : Nat) : Option Reg := Reg.all.find? (fun r => r.offset == off)

/-- The offset at which the core sees a host address, or none where the access does not reach the core
(20_memory.md R50). -/
def windowOffset (c : Config) (addr : Nat) : Option Nat :=
  if c.windowBase ≤ addr ∧ addr < c.windowBase + windowSize then some (addr - c.windowBase) else none

/-- Conditions 1 to 3 of 20_memory.md R52: the register that an access of `size` bytes at `off` addresses. -/
def addressedReg (off size : Nat) : Option Reg :=
  if size = accessBytes ∧ off % 8 = 0 then regAt off else none

end Sys2Proof.Machine
end

