-- ==== Sys2Proof/Syntax.lean ====
section
/-! DEFINITION. The commands, one constructor per row of spec/opcode_table.json. A command has no operand fields
(30_encoding.md R71, R77): its operands are fixed registers. -/

namespace Sys2Proof

/-- The five commands of 30_encoding.md R72. -/
inductive Instr where
  /-- NOP, word 0x0 (43_control.md R150). -/
  | nop
  /-- MUL, word 0x1 (41_multiplier.md R113). -/
  | mul
  /-- DIV, word 0x2 (42_divider.md R133). -/
  | div
  /-- MULDIV, word 0x3 (42_divider.md R134). -/
  | muldiv
  /-- CLEAR, word 0x4 (43_control.md R151). -/
  | clear
deriving DecidableEq, Repr

end Sys2Proof
end

