-- ==== Sys2Proof/Machine/HostProgram.lean ====
section
/-! DEFINITION. Host programs: the statements of 30_encoding.md R81 to R84, their listing (R85) and the host port
accesses they stand for (20_memory.md R51). -/

namespace Sys2Proof.Machine

/-- One access on the host's bus (20_memory.md R50, R51): an address, a size in bytes and, for a write, a 64-bit value. -/
inductive Access where
  | read (addr size : Nat)
  | write (addr size : Nat) (v : Word)
deriving DecidableEq, Repr

/-- What the host does at its turn: one access, or one read of a `poll` (30_encoding.md R84). -/
inductive HostOp where
  | access (a : Access)
  | poll
deriving DecidableEq, Repr

/-- The 128-bit destinations of `wr128` (30_encoding.md R83). -/
inductive Dest128 where
  | a | b | dv
deriving DecidableEq, Repr

/-- The 256-bit sources of `rd256` (30_encoding.md R83). -/
inductive Src256 where
  | p | q
deriving DecidableEq, Repr

/-- One statement of a host program (30_encoding.md R81 to R84). Numeric operands are naturals; WellFormed bounds them. -/
inductive HostStmt where
  | wr (r : Reg) (v : Nat)
  | rd (r : Reg)
  | cmd (i : Instr)
  | wr128 (d : Dest128) (v : Nat)
  | wr256N (v : Nat)
  | rd128RM
  | rd256 (x : Src256)
  | poll
deriving DecidableEq, Repr

/-- One line of a listing (30_encoding.md R85): `W off data`, `R off`, or the repeated read of `poll`. -/
inductive ListingLine where
  | w (off : Nat) (data : Word)
  | r (off : Nat)
  | poll
deriving DecidableEq, Repr

/-- `match(M)` of 30_encoding.md R73, for `cmd M`. -/
def cmdMatch : Instr → Nat
  | .nop => 0x0
  | .mul => 0x1
  | .div => 0x2
  | .muldiv => 0x3
  | .clear => 0x4

/-- The line of `wr REG, v` (30_encoding.md R81). -/
def wrLine (r : Reg) (v : Nat) : ListingLine := .w r.offset (BitVec.ofNat 64 v)

/-- The line of `rd REG` (30_encoding.md R81). -/
def rdLine (r : Reg) : ListingLine := .r r.offset

/-- The low and high registers of a 128-bit destination (30_encoding.md R83). -/
def Dest128.regs : Dest128 → Reg × Reg
  | .a => (.a0, .a1)
  | .b => (.b0, .b1)
  | .dv => (.dv0, .dv1)

/-- A statement's listing, limbs in increasing index (30_encoding.md R81 to R85). -/
def HostStmt.lines : HostStmt → List ListingLine
  | .wr r v => [wrLine r v]
  | .rd r => [rdLine r]
  | .cmd i => [wrLine .cmd (cmdMatch i)]
  | .wr128 d v => [wrLine d.regs.1 (v % 2 ^ 64), wrLine d.regs.2 (v / 2 ^ 64)]
  | .wr256N v =>
    [wrLine .n0 (v % 2 ^ 64), wrLine .n1 (v / 2 ^ 64 % 2 ^ 64), wrLine .n2 (v / 2 ^ 128 % 2 ^ 64),
      wrLine .n3 (v / 2 ^ 192 % 2 ^ 64)]
  | .rd128RM => [rdLine .rm0, rdLine .rm1]
  | .rd256 .p => [rdLine .p0, rdLine .p1, rdLine .p2, rdLine .p3]
  | .rd256 .q => [rdLine .q0, rdLine .q1, rdLine .q2, rdLine .q3]
  | .poll => [.poll]

/-- A program's listing (30_encoding.md R85). -/
def listing (prog : List HostStmt) : List ListingLine := prog.flatMap HostStmt.lines

/-- The host operation of a line, at the addresses of the window (20_memory.md R50, 30_encoding.md R85). -/
def ListingLine.toOp (c : Config) : ListingLine → HostOp
  | .w off data => .access (.write (c.windowBase + off) accessBytes data)
  | .r off => .access (.read (c.windowBase + off) accessBytes)
  | .poll => .poll

/-- The host operations of a whole program. -/
def hostOps (c : Config) (prog : List HostStmt) : List HostOp := (listing prog).map (ListingLine.toOp c)

end Sys2Proof.Machine
end

