-- ==== Sys2Proof/WellFormed.lean ====
section
/-! DEFINITION. Which terms of the syntax are well formed. A command has no operand, so every command is; a host
statement's number must fit the width 30_encoding.md R80 and R83 give it. -/

namespace Sys2Proof

/-- A command has no field that could be out of range (30_encoding.md R71). -/
def Instr.wf : Instr → Bool
  | .nop => true
  | .mul => true
  | .div => true
  | .muldiv => true
  | .clear => true

namespace Machine

/-- A literal fits the width of its statement: 64 bits (30_encoding.md R80), 128 or 256 bits (R83). -/
def HostStmt.wf : HostStmt → Bool
  | .wr _ v => v < 2 ^ 64
  | .rd _ => true
  | .cmd i => i.wf
  | .wr128 _ v => v < 2 ^ 128
  | .wr256N v => v < 2 ^ 256
  | .rd128RM => true
  | .rd256 _ => true
  | .poll => true

/-- Every statement of a program is well formed. -/
def programWf (prog : List HostStmt) : Bool := prog.all HostStmt.wf

end Machine
end Sys2Proof
end

