-- ==== Sys2Proof/Decode.lean ====
section
/-! DEFINITION. Decoding a command word (30_encoding.md R70 to R76), from the word and from its eight byte lanes, and
the encoder. -/

namespace Sys2Proof

/-- What a command word decodes to: exactly one of the five commands or ILLEGAL (30_encoding.md R74). -/
inductive Decoded where
  | command (i : Instr)
  /-- A word of 30_encoding.md R76: RSVD not 0, or OPCODE above 0x04. -/
  | illegal
deriving DecidableEq, Repr

/-- The OPCODE field, bits 7:0 (30_encoding.md R71). -/
def opcodeField (w : Word) : BitVec 8 := w.extractLsb' 0 8

/-- The RSVD field, bits 63:8 (30_encoding.md R71). -/
def rsvdField (w : Word) : BitVec 56 := w.extractLsb' 8 56

/-- `valid_cmd` of 30_encoding.md R73. -/
def validCmd (w : Word) : Bool := rsvdField w == 0 && decide ((opcodeField w).toNat ≤ 0x04)

/-- `decode` of 30_encoding.md R74. -/
def decode (w : Word) : Decoded :=
  if rsvdField w ≠ 0 then .illegal
  else if opcodeField w = 0x00 then .command .nop
  else if opcodeField w = 0x01 then .command .mul
  else if opcodeField w = 0x02 then .command .div
  else if opcodeField w = 0x03 then .command .muldiv
  else if opcodeField w = 0x04 then .command .clear
  else .illegal

/-- The word of a command, RSVD = 0 above its OPCODE (30_encoding.md R71, R72). -/
def encode (i : Instr) : Word :=
  let opcode : BitVec 8 :=
    match i with
    | .nop => 0x00
    | .mul => 0x01
    | .div => 0x02
    | .muldiv => 0x03
    | .clear => 0x04
  (0 : BitVec 56) ++ opcode

/-- Byte lane `k` of a word: bits `8k + 7` to `8k` (20_memory.md R57). -/
def laneOf (w : Word) (k : Nat) : Byte := w.extractLsb' (8 * k) 8

/-- The eight lanes of a word, lane 0 first (20_memory.md R57). -/
def lanesOf (w : Word) : List Byte := (List.range 8).map (laneOf w)

/-- The number that a list of byte lanes holds, lane 0 least significant (20_memory.md R57). -/
def natOfLanes : List Byte → Nat
  | [] => 0
  | b :: bs => b.toNat + 2 ^ 8 * natOfLanes bs

/-- What eight byte lanes decode to. -/
inductive DecodedBytes where
  | command (i : Instr)
  /-- Eight lanes whose word is illegal (30_encoding.md R76). -/
  | illegal
  /-- Not eight bytes: no command has another length (30_encoding.md R70, R78). -/
  | notOneWord
deriving DecidableEq, Repr

/-- Decoding is total on byte strings: a command is exactly one 64-bit word (30_encoding.md R70). -/
def decodeBytes (bs : List Byte) : DecodedBytes :=
  if bs.length = 8 then
    match decode (BitVec.ofNat 64 (natOfLanes bs)) with
    | .command i => .command i
    | .illegal => .illegal
  else .notOneWord

/-- The `nbits / 8` bytes of a table word, first byte least significant; at least the eight bytes of a command. -/
def tableBytes (nbits w : Nat) : List Byte :=
  (List.range (max 8 ((nbits + 7) / 8))).map (fun k => BitVec.ofNat 8 (w % 2 ^ nbits / 2 ^ (8 * k)))

/-- The command the decoder reads from a word numbered as spec/opcode_table.json numbers it. -/
def decodeTableWord (nbits w : Nat) : Option Instr :=
  match decodeBytes (tableBytes nbits w) with
  | .command i => some i
  | .illegal => none
  | .notOneWord => none

end Sys2Proof
end

