-- ==== Sys2Proof/Machine/State.lean ====
section
/-! DEFINITION. The state of one core, of its host port and of the agents that act on it; what stops a step; reset. -/

namespace Sys2Proof.Machine

/-- The sequencer phase (10_state.md R32, R33). -/
inductive Phase where
  | idle | mulOnly | mulThenDiv | div
deriving DecidableEq, Repr

/-- The agents that change the core's state (20_memory.md R63). -/
inductive Agent where
  | host | core | reset
deriving DecidableEq, Repr

/-- The error codes of 60_exceptions.md R160 that name an error. -/
inductive ErrorCode where
  | invalidDivisor
  | operandOutOfRange
  | invariantViolation
  | illegalCommand
  | busyReject
deriving DecidableEq, Repr

/-- The host port's answer to one access (20_memory.md R51, R53, R55). -/
inductive Response where
  /-- An admitted read returns a register's value (20_memory.md R53). -/
  | data (v : Word)
  /-- An admitted write has no data (20_memory.md R54). -/
  | ack
  /-- The error response, without data (20_memory.md R55). -/
  | busError
  /-- The address is outside the window, so this core answers nothing (20_memory.md R50). -/
  | notReached
deriving DecidableEq, Repr

/-- The whole state. Registers: 10_state.md R20. Internal state: 10_state.md R32. -/
structure State where
  /-- A0, A1 (10_state.md R21). -/
  a : Limbs2
  /-- B0, B1 (10_state.md R21). -/
  b : Limbs2
  /-- DV0, DV1 (10_state.md R22). -/
  dv : Limbs2
  /-- N0 to N3 (10_state.md R23). -/
  n : Limbs4
  /-- P0 to P3 (10_state.md R24). -/
  p : Limbs4
  /-- Q0 to Q3 (10_state.md R25). -/
  q : Limbs4
  /-- RM0, RM1 (10_state.md R26). -/
  rm : Limbs2
  /-- STATUS.DONE, a stored bit (10_state.md R30). -/
  done : Bool
  /-- STATUS.ERR (10_state.md R29, 60_exceptions.md R163). -/
  err : BitVec 4
  /-- `s.phase` (10_state.md R33); STATUS.BUSY is computed from it (R34). -/
  phase : Phase
  /-- `s.opa`, latched operand a (10_state.md R32). -/
  opa : BitVec 128
  /-- `s.opb`, latched operand b (10_state.md R32). -/
  opb : BitVec 128
  /-- `s.dvr`, latched divisor (10_state.md R32). -/
  dvr : BitVec 128
  /-- `s.dvd`, the dividend being divided (10_state.md R32). -/
  dvd : Limbs4
  /-- `s.racc`, the 129-bit remainder accumulator (10_state.md R32). -/
  racc : BitVec 129
  /-- `s.qacc`, the quotient limbs so far (10_state.md R32). -/
  qacc : Limbs4
  /-- `s.cnt`, iterations done, 0 to 256 (10_state.md R32). -/
  cnt : BitVec 9
  /-- A bus error has happened in this run; never cleared (20_memory.md R55). -/
  hostFault : Bool
  /-- The platform parameter `WINDOW_BASE` (20_memory.md R50). -/
  config : Config
  /-- What the host still has to do, oldest first (30_encoding.md R80). The model's own field: log 4. -/
  program : List HostOp
  /-- Who takes each next step, oldest first (93_implementation_defined.md W3). The model's own field: log 1. -/
  schedule : List Agent
  /-- The host port's answers, newest first. The model's own field: log 6. -/
  responses : List Response
deriving DecidableEq, Repr

/-- Why a step stops. This happens only in states that no run reaches (10_state.md R37), where the spec gives the core step no
effect. -/
inductive Fault where
  /-- Raised by a division core step with `s.cnt` above 255: 42_divider.md R136 gives an effect for 0 to 255 only. Safe (log 8). -/
  | divisionCounterOutOfRange
deriving DecidableEq, Repr

/-- Why a command is refused. -/
inductive Refusal where
  /-- Raised by an arm of `exec` for a command without a meaning; none is left. Safe. -/
  | notModelled (mnemonic : String)
deriving DecidableEq, Repr

/-- The outcome of one step of this machine. -/
abbrev StepOutcome := Host.Outcome State Fault Refusal

/-- The state right after reset (70_reset_and_hazards.md R180): all registers and internal elements 0, the phase IDLE. The
model's own fields are empty and the window stands in slot 0 (log 3, log 4). -/
def State.reset : State where
  a := Limbs2.zero
  b := Limbs2.zero
  dv := Limbs2.zero
  n := Limbs4.zero
  p := Limbs4.zero
  q := Limbs4.zero
  rm := Limbs2.zero
  done := false
  err := 0
  phase := .idle
  opa := 0
  opb := 0
  dvr := 0
  dvd := Limbs4.zero
  racc := 0
  qacc := Limbs4.zero
  cnt := 0
  hostFault := false
  config := ⟨0⟩
  program := []
  schedule := []
  responses := []

end Sys2Proof.Machine
end

