-- ==== Sys2Proof/Machine/Operands.lean ====
section
/-! DEFINITION. The limb helpers (40_limb_helpers.md R100 to R107) and the operand forms of the commands
(30_encoding.md R77). All values are naturals, narrowed to limbs where a rule says so (00_scope.md R9). -/

namespace Sys2Proof.Machine

/-- `v[hi:lo]` of 00_scope.md R8. -/
def slice (v hi lo : Nat) : Nat := v / 2 ^ lo % 2 ^ (hi - lo + 1)

/-- `hi(v)` of 40_limb_helpers.md R101. -/
def hi (v : Nat) : Nat := v / 2 ^ 64

/-- `lo(v)` of 40_limb_helpers.md R101. -/
def lo (v : Nat) : Nat := v % 2 ^ 64

/-- `limb_decompose`: the pair (high, low) (40_limb_helpers.md R101). -/
def split (v : Nat) : Nat × Nat := (hi v, lo v)

/-- `limb_assemble` of two limbs (40_limb_helpers.md R103). -/
def join2 (x : Limbs2) : Nat := x.l1.toNat * 2 ^ 64 + x.l0.toNat

/-- `limb_assemble` of four limbs (40_limb_helpers.md R103). -/
def join4 (x : Limbs4) : Nat :=
  x.l3.toNat * 2 ^ 192 + x.l2.toNat * 2 ^ 128 + x.l1.toNat * 2 ^ 64 + x.l0.toNat

/-- The two limbs of a value, `[v[63:0], v[127:64]]` (42_divider.md R137). -/
def limbs2 (v : Nat) : Limbs2 := ⟨BitVec.ofNat 64 (slice v 63 0), BitVec.ofNat 64 (slice v 127 64)⟩

/-- `limbs4` of 40_limb_helpers.md R104. -/
def limbs4 (v : Nat) : Limbs4 :=
  ⟨BitVec.ofNat 64 (slice v 63 0), BitVec.ofNat 64 (slice v 127 64), BitVec.ofNat 64 (slice v 191 128),
    BitVec.ofNat 64 (slice v 255 192)⟩

/-- `bit(L, p)` of 40_limb_helpers.md R105, for `p` in 0 to 63. -/
def bitAt (x : Word) (p : Nat) : Nat := x.toNat / 2 ^ p % 2

/-- `setbit(L, p)` of 40_limb_helpers.md R106 by setting the bit, as 92_eei_decisions.md D27 has it. -/
def setBitAt (x : Word) (p : Nat) : Word := x ||| BitVec.ofNat 64 (2 ^ p)

/-- `L_i` of a limb array (00_scope.md R10). -/
def limbOf (x : Limbs4) (i : Fin 4) : Word :=
  match i with
  | 0 => x.l0
  | 1 => x.l1
  | 2 => x.l2
  | 3 => x.l3

/-- A limb array with limb `i` replaced (42_divider.md R136). -/
def setLimb (x : Limbs4) (i : Fin 4) (v : Word) : Limbs4 :=
  match i with
  | 0 => { x with l0 := v }
  | 1 => { x with l1 := v }
  | 2 => { x with l2 := v }
  | 3 => { x with l3 := v }

/-- Operand a, `join2(x[A0], x[A1])` (30_encoding.md R77). -/
def operandA (s : State) : Nat := join2 s.a

/-- Operand b, `join2(x[B0], x[B1])` (30_encoding.md R77). -/
def operandB (s : State) : Nat := join2 s.b

/-- The divisor d, `join2(x[DV0], x[DV1])` (30_encoding.md R77). -/
def divisorD (s : State) : Nat := join2 s.dv

/-- The dividend n of DIV, `join4(x[N0], x[N1], x[N2], x[N3])` (30_encoding.md R77). -/
def dividendN (s : State) : Nat := join4 s.n

end Sys2Proof.Machine
end

