-- ==== Sys2Proof/Machine/Flags.lean ====
section
/-! DEFINITION. The core's only flags, STATUS.BUSY, DONE and ERR (10_state.md R29, R30, R34, R39). -/

namespace Sys2Proof.Machine

/-- STATUS.BUSY, computed from the phase (10_state.md R34). -/
def busy (s : State) : Bool := decide (s.phase ≠ .idle)

/-- The code of an error (60_exceptions.md R160). -/
def ErrorCode.code : ErrorCode → BitVec 4
  | .invalidDivisor => 1
  | .operandOutOfRange => 2
  | .invariantViolation => 3
  | .illegalCommand => 4
  | .busyReject => 5

/-- `x[STATUS]`: bits 63:8 zero, ERR in 7:4, 3:2 zero, DONE in 1, BUSY in 0 (10_state.md R29). -/
def statusWord (s : State) : Word :=
  (0 : BitVec 56) ++ s.err ++ (0 : BitVec 2) ++ BitVec.ofBool s.done ++ BitVec.ofBool (busy s)

/-- Write STATUS.DONE (10_state.md R30). -/
def setDone (d : Bool) (s : State) : State := { s with done := d }

/-- Write STATUS.ERR (60_exceptions.md R163, 43_control.md R151). -/
def setErr (e : BitVec 4) (s : State) : State := { s with err := e }

/-- Write `s.phase` (10_state.md R33). -/
def setPhase (ph : Phase) (s : State) : State := { s with phase := ph }

end Sys2Proof.Machine
end

