-- ==== Sys2Proof/Machine/Ops.lean ====
section
/-! DEFINITION. The named operations over registers, errors and the host port's record. -/

namespace Sys2Proof.Machine

/-- `x[NAME]` of a register with storage, and of STATUS. CMD has none (10_state.md R20, R28). -/
def readReg (s : State) : Reg → Option Word
  | .a0 => some s.a.l0
  | .a1 => some s.a.l1
  | .b0 => some s.b.l0
  | .b1 => some s.b.l1
  | .dv0 => some s.dv.l0
  | .dv1 => some s.dv.l1
  | .n0 => some s.n.l0
  | .n1 => some s.n.l1
  | .n2 => some s.n.l2
  | .n3 => some s.n.l3
  | .p0 => some s.p.l0
  | .p1 => some s.p.l1
  | .p2 => some s.p.l2
  | .p3 => some s.p.l3
  | .q0 => some s.q.l0
  | .q1 => some s.q.l1
  | .q2 => some s.q.l2
  | .q3 => some s.q.l3
  | .rm0 => some s.rm.l0
  | .rm1 => some s.rm.l1
  | .cmd => none
  | .status => some (statusWord s)

/-- A host's write of an RW register (20_memory.md R54); none for a register the host may not write this way. -/
def writeReg (s : State) (v : Word) : Reg → Option State
  | .a0 => some { s with a := { s.a with l0 := v } }
  | .a1 => some { s with a := { s.a with l1 := v } }
  | .b0 => some { s with b := { s.b with l0 := v } }
  | .b1 => some { s with b := { s.b with l1 := v } }
  | .dv0 => some { s with dv := { s.dv with l0 := v } }
  | .dv1 => some { s with dv := { s.dv with l1 := v } }
  | .n0 => some { s with n := { s.n with l0 := v } }
  | .n1 => some { s with n := { s.n with l1 := v } }
  | .n2 => some { s with n := { s.n with l2 := v } }
  | .n3 => some { s with n := { s.n with l3 := v } }
  | .p0 | .p1 | .p2 | .p3 | .q0 | .q1 | .q2 | .q3 | .rm0 | .rm1 | .cmd | .status => none

/-- `raise E` is `record(c)`: the first error since the last CLEAR or reset wins (60_exceptions.md R163). This is all that
taking an error is: no trap, no handler, no other state (00_scope.md R13, 60_exceptions.md R167). -/
def raise (e : ErrorCode) (s : State) : State :=
  if s.err = 0 then setErr e.code s else s

/-- `clear()`, the only return from an error besides reset (43_control.md R151, 60_exceptions.md R168). -/
def clearErr (s : State) : State := setErr 0 s

/-- Record the host port's answer to an access. -/
def respond (r : Response) (s : State) : State := { s with responses := r :: s.responses }

/-- A bus error: the host fault is recorded and nothing of the core changes (20_memory.md R55). -/
def busError (s : State) : State := { respond .busError s with hostFault := true }

/-- The checks of 30_encoding.md R75 that MUL, DIV and MULDIV share, after decoding: DONE := 0, then BUSY_REJECT, then, for a
command that divides, INVALID_DIVISOR, then acceptance. -/
def dispatchCompute (divides : Bool) (accept : State → State) (s : State) : State :=
  let s₁ := setDone false s
  if busy s then raise .busyReject s₁
  else if divides = true ∧ divisorD s = 0 then raise .invalidDivisor s₁
  else accept s₁

/-- The reset step (70_reset_and_hazards.md R180): the core is as in `State.reset`. The host fault record is never cleared
(20_memory.md R55), and the platform, the host's program, the schedule and the port's record are not the core's (log 20). -/
def resetCore (s : State) : State :=
  { State.reset with
    hostFault := s.hostFault
    config := s.config
    program := s.program
    schedule := s.schedule
    responses := s.responses }

end Sys2Proof.Machine
end

