-- ==== Sys2Proof/Machine/Control.lean ====
section
/-! DEFINITION. The control commands NOP and CLEAR (43_control.md). -/

namespace Sys2Proof.Machine

/-- NOP has no effect; it does not clear DONE (43_control.md R150). -/
def execNop (s : State) : StepOutcome := .next s

/-- CLEAR: DONE := 0 (30_encoding.md R75), then ERR := 0, in every phase (43_control.md R151). -/
def execClear (s : State) : StepOutcome := .next (clearErr (setDone false s))

end Sys2Proof.Machine
end

