-- ==== Sys2Proof/Machine/Multiplier.lean ====
section
/-! DEFINITION. The schoolbook limb multiplier (41_multiplier.md) and the command MUL. -/

namespace Sys2Proof.Machine

/-- The four partial products of 41_multiplier.md R111. -/
structure PartialProducts where
  ll : Nat
  lh : Nat
  hl : Nat
  hh : Nat
deriving DecidableEq, Repr

/-- `ll`, `lh`, `hl`, `hh` (41_multiplier.md R111). -/
def partialProducts (a b : Nat) : PartialProducts :=
  ⟨lo a * lo b, lo a * hi b, hi a * lo b, hi a * hi b⟩

/-- `s1` of 41_multiplier.md R112. -/
def sum1 (a b : Nat) : Nat :=
  let pp := partialProducts a b
  lo pp.lh + lo pp.hl + hi pp.ll

/-- `carry1` of 41_multiplier.md R112. -/
def carry1 (a b : Nat) : Nat := sum1 a b / 2 ^ 64

/-- `s2` of 41_multiplier.md R112. -/
def sum2 (a b : Nat) : Nat :=
  let pp := partialProducts a b
  hi pp.lh + hi pp.hl + lo pp.hh + carry1 a b

/-- `carry2` of 41_multiplier.md R112. -/
def carry2 (a b : Nat) : Nat := sum2 a b / 2 ^ 64

/-- `limb_3` of 41_multiplier.md R112, before any narrowing. -/
def limb3 (a b : Nat) : Nat := hi (partialProducts a b).hh + carry2 a b

/-- `mul128(a, b)` of 41_multiplier.md R112. -/
def mul128 (a b : Nat) : Limbs4 :=
  ⟨BitVec.ofNat 64 (lo (partialProducts a b).ll), BitVec.ofNat 64 (sum1 a b % 2 ^ 64),
    BitVec.ofNat 64 (sum2 a b % 2 ^ 64), BitVec.ofNat 64 (limb3 a b)⟩

/-- `check_mul` of 41_multiplier.md R115: does `limb_3` fit a limb? -/
def checkMul (a b : Nat) : Bool := decide (limb3 a b < 2 ^ 64)

/-- A failed `check_mul`: INVARIANT_VIOLATION, no result, phase IDLE (41_multiplier.md R115, 60_exceptions.md R167). -/
def abandonCommand (s : State) : State := setPhase .idle (raise .invariantViolation s)

/-- `mul_accept` of 41_multiplier.md R113. -/
def mulAccept (s : State) : State :=
  { s with
    opa := BitVec.ofNat 128 (operandA s)
    opb := BitVec.ofNat 128 (operandB s)
    cnt := 0
    phase := .mulOnly }

/-- MUL, the host step of its CMD write (30_encoding.md R75, 41_multiplier.md R113). -/
def execMul (s : State) : StepOutcome := .next (dispatchCompute false mulAccept s)

/-- `mul_step_only`, the core step of phase MUL_ONLY (41_multiplier.md R114). -/
def mulStepOnly (s : State) : State :=
  if checkMul s.opa.toNat s.opb.toNat then
    { s with p := mul128 s.opa.toNat s.opb.toNat, done := true, phase := .idle }
  else abandonCommand s

end Sys2Proof.Machine
end

