-- ==== Sys2Proof/Machine/Divider.lean ====
section
/-! DEFINITION. The bit-serial divider (42_divider.md) and the commands DIV and MULDIV. -/

namespace Sys2Proof.Machine

/-- `i(k)`, the limb of iteration `k` (42_divider.md R132). -/
def iterLimb (k : Nat) : Fin 4 := ⟨3 - k / 64, by omega⟩

/-- `p(k)`, the bit position of iteration `k` (42_divider.md R132). -/
def iterPos (k : Nat) : Nat := 63 - k % 64

/-- `div_accept` of 42_divider.md R133. -/
def divAccept (s : State) : State :=
  { s with
    dvd := s.n
    dvr := BitVec.ofNat 128 (divisorD s)
    racc := 0
    qacc := Limbs4.zero
    cnt := 0
    phase := .div }

/-- `muldiv_accept` of 42_divider.md R134. -/
def muldivAccept (s : State) : State :=
  { s with
    opa := BitVec.ofNat 128 (operandA s)
    opb := BitVec.ofNat 128 (operandB s)
    dvr := BitVec.ofNat 128 (divisorD s)
    racc := 0
    qacc := Limbs4.zero
    cnt := 0
    phase := .mulThenDiv }

/-- DIV, the host step of its CMD write (30_encoding.md R75, 42_divider.md R133). -/
def execDiv (s : State) : StepOutcome := .next (dispatchCompute true divAccept s)

/-- MULDIV, the host step of its CMD write (30_encoding.md R75, 42_divider.md R134). -/
def execMuldiv (s : State) : StepOutcome := .next (dispatchCompute true muldivAccept s)

/-- `mul_step_then_div`, the core step of phase MUL_THEN_DIV (42_divider.md R135). -/
def mulStepThenDiv (s : State) : State :=
  if checkMul s.opa.toNat s.opb.toNat then
    { s with p := mul128 s.opa.toNat s.opb.toNat, dvd := mul128 s.opa.toNat s.opb.toNat, phase := .div }
  else abandonCommand s

/-- `t` of an iteration: the accumulator shifted left with the next dividend bit (42_divider.md R136). -/
def shiftedIn (s : State) : Nat :=
  2 * s.racc.toNat + bitAt (limbOf s.dvd (iterLimb s.cnt.toNat)) (iterPos s.cnt.toNat)

/-- `r'` of an iteration, after compare-and-subtract (42_divider.md R136). -/
def nextRem (s : State) : Nat :=
  if s.dvr.toNat ≤ shiftedIn s then shiftedIn s - s.dvr.toNat else shiftedIn s

/-- `q'` of an iteration (42_divider.md R136). -/
def nextQuo (s : State) : Limbs4 :=
  let i := iterLimb s.cnt.toNat
  if s.dvr.toNat ≤ shiftedIn s then setLimb s.qacc i (setBitAt (limbOf s.qacc i) (iterPos s.cnt.toNat)) else s.qacc

/-- `div_finish` of 42_divider.md R137, with its defensive check. -/
def divFinish (r' : Nat) (q' : Limbs4) (s : State) : State :=
  if s.dvr.toNat ≤ r' then abandonCommand s
  else { s with q := q', rm := limbs2 r', done := true, phase := .idle }

/-- `s.racc <- r'`: the number itself where the field holds it (42_divider.md R139), else the free value of log 9. -/
def raccOf (r' : Nat) : BitVec raccW :=
  if r' < 2 ^ raccW then BitVec.ofNat raccW r' else unstatedRacc r'

/-- The writes that every iteration makes to `s.racc`, `s.qacc` and `s.cnt` (42_divider.md R136). -/
def iterated (s : State) : State :=
  { s with
    racc := raccOf (nextRem s)
    qacc := nextQuo s
    cnt := BitVec.ofNat 9 (s.cnt.toNat + 1) }

/-- `div_iteration`, the core step of phase DIV (42_divider.md R136). Outside `0 <= s.cnt <= 255` the spec
gives no effect and the step faults (log 8). -/
def divIteration (s : State) : StepOutcome :=
  if divIters ≤ s.cnt.toNat then .fault .divisionCounterOutOfRange
  else if s.cnt.toNat + 1 = divIters then .next (divFinish (nextRem s) (nextQuo s) (iterated s))
  else .next (iterated s)

end Sys2Proof.Machine
end

