-- ==== Sys2Proof/Machine/HostPort.lean ====
section
/-! DEFINITION. The host port: reads, writes, command writes, bus errors and host steps (20_memory.md R50 to R55). -/

namespace Sys2Proof.Machine

/-- The error of an illegal word: DONE := 0 and ILLEGAL_COMMAND, whatever the phase (30_encoding.md R75, R76). -/
def rejectIllegal (s : State) : State := raise .illegalCommand (setDone false s)

/-- `cmd_write(w)` of 30_encoding.md R75. -/
def cmdWrite (w : Word) (s : State) : StepOutcome :=
  match decode w with
  | .command i => exec i s
  | .illegal => .next (rejectIllegal s)

/-- `MemRead(off, size)`: the value of an admitted read, none for a bus error (20_memory.md R52, R53). -/
def portRead (off size : Nat) (s : State) : Option Word :=
  match addressedReg off size with
  | some r => readReg s r
  | none => none

/-- `MemWrite(off, size, v)`: the outcome of an admitted write, none for a bus error (20_memory.md R52, R54). -/
def portWrite (off size : Nat) (v : Word) (s : State) : Option StepOutcome :=
  match addressedReg off size with
  | some .cmd => some (cmdWrite v s)
  | some r => (writeReg s v r).map .next
  | none => none

/-- One host access from the bus (20_memory.md R50 to R55). -/
def performAccess (acc : Access) (s : State) : StepOutcome :=
  match acc with
  | .read addr size =>
    match windowOffset s.config addr with
    | none => .next (respond .notReached s)
    | some off =>
      match portRead off size s with
      | some v => .next (respond (.data v) s)
      | none => .next (busError s)
  | .write addr size v =>
    match windowOffset s.config addr with
    | none => .next (respond .notReached s)
    | some off =>
      match portWrite off size v (respond .ack s) with
      | some o => o
      | none => .next (busError s)

/-- A host step: the next access of the host's program. `poll` reads STATUS and stays at the head while BUSY reads 1
(20_memory.md R52, 30_encoding.md R84). A host with nothing left to do changes nothing (log 2). -/
def hostStep (s : State) : StepOutcome :=
  match s.program with
  | [] => .next s
  | .access acc :: ops => performAccess acc { s with program := ops }
  | .poll :: ops =>
    performAccess (.read (s.config.windowBase + Reg.status.offset) accessBytes)
      { s with program := if (statusWord s).getLsbD 0 then .poll :: ops else ops }

end Sys2Proof.Machine
end

