-- ==== Sys2Proof/Machine/Sequencer.lean ====
section
/-! DEFINITION. The core step (10_state.md R36). -/

namespace Sys2Proof.Machine

/-- `core_step` of 10_state.md R36: the action of the current phase. In IDLE no step is enabled, and the core keeps all its
state (60_exceptions.md R176, log 2). -/
def coreStep (s : State) : StepOutcome :=
  match s.phase with
  | .idle => .next s
  | .mulOnly => .next (mulStepOnly s)
  | .mulThenDiv => .next (mulStepThenDiv s)
  | .div => divIteration s

end Sys2Proof.Machine
end

