-- ==== Sys2Proof/Machine/Step.lean ====
section
/-! DEFINITION. One step of the machine: the agent that the schedule names acts once, atomically (00_scope.md R15). -/

namespace Sys2Proof.Machine

/-- The next agent's step. With the schedule used up, the sequencer runs on while the core is busy (70_reset_and_hazards.md
R191), and an idle core keeps its state (60_exceptions.md R176); log 1 and log 2. -/
def step (s : State) : Host.Outcome State Fault Refusal :=
  match s.schedule with
  | [] => coreStep s
  | .host :: rest => hostStep { s with schedule := rest }
  | .core :: rest => coreStep { s with schedule := rest }
  | .reset :: rest => .next (resetCore { s with schedule := rest })

/-- The state with the host's turn next and, first in its program, the write of a command word to CMD (10_state.md R28): the
place from which a step takes its next command. -/
def State.withFetchWord (s : State) (nbits w : Nat) : State :=
  { s with
    program := .access (.write (s.config.windowBase + Reg.cmd.offset) accessBytes (BitVec.ofNat 64 (w % 2 ^ nbits))) :: s.program
    schedule := .host :: s.schedule }

end Sys2Proof.Machine
end

