-- ==== Sys2Proof/Machine/Results.lean ====
section
/-! DEFINITION. The results of a host program's statements, read off the host port's answers (30_encoding.md R81, R83, R84). -/

namespace Sys2Proof.Machine

/-- What one statement yields. -/
inductive StmtResult where
  /-- The statement reads nothing. -/
  | nothing
  /-- The value read: `rd`, `rd128` (by join2), `rd256` (by join4), and the last STATUS of a `poll`. -/
  | value (v : Nat)
  /-- An access of the statement got no data, or the program ended within it (20_memory.md R55). -/
  | missing
deriving DecidableEq, Repr

/-- The answers a `poll` takes, oldest first, and the last STATUS value: reads while BUSY is 1, then one with BUSY 0
(30_encoding.md R84). -/
def pollResult : List Response → StmtResult × List Response
  | .data v :: rs => if v.getLsbD 0 then pollResult rs else (.value v.toNat, rs)
  | rs => (.missing, rs)

/-- The values of the next `k` answers, none where one of them carries no data. -/
def takeData : Nat → List Response → Option (List Word)
  | 0, _ => some []
  | k + 1, .data v :: rs => (takeData k rs).map (v :: ·)
  | _ + 1, _ => none

/-- `rd128`'s and `rd256`'s result from the limbs read, in increasing limb index (30_encoding.md R83). -/
def joinRead : List Word → StmtResult
  | [l0] => .value l0.toNat
  | [l0, l1] => .value (join2 ⟨l0, l1⟩)
  | [l0, l1, l2, l3] => .value (join4 ⟨l0, l1, l2, l3⟩)
  | _ => .missing

/-- The result of one statement and the answers after its own. -/
def HostStmt.result (st : HostStmt) (rs : List Response) : StmtResult × List Response :=
  match st with
  | .poll => pollResult rs
  | .wr _ _ | .cmd _ | .wr128 _ _ | .wr256N _ => (.nothing, rs.drop st.lines.length)
  | .rd _ | .rd128RM | .rd256 _ =>
    (match takeData st.lines.length rs with
      | some vs => joinRead vs
      | none => .missing, rs.drop st.lines.length)

/-- The results of a program's statements, from the port's answers oldest first. -/
def programResults : List HostStmt → List Response → List StmtResult
  | [], _ => []
  | st :: prog, rs => (st.result rs).1 :: programResults prog (st.result rs).2

end Sys2Proof.Machine
end

