-- ==== Sys2Proof/Safety.lean ====
section
/-! DEFINITION. The terms of claims: runs, reachable states, the invariants of 10_state.md R37 and 42_divider.md R140, what an
end of a run is, and the parts of the state that a frame compares. -/

namespace Sys2Proof.Machine

/-- `k` steps, ending at the first stop. -/
def runFor : Nat → State → StepOutcome
  | 0, s => .next s
  | k + 1, s =>
    match step s with
    | .next t => runFor k t
    | .fault r => .fault r
    | .refused r => .refused r

/-- `k` core steps and no other step, ending at the first stop (10_state.md R36). -/
def coreRun : Nat → State → StepOutcome
  | 0, s => .next s
  | k + 1, s =>
    match coreStep s with
    | .next t => coreRun k t
    | .fault r => .fault r
    | .refused r => .refused r

/-- The reset state with a platform, a host program and a schedule loaded from outside (log 4). -/
def loaded (c : Config) (prog : List HostOp) (sched : List Agent) : State :=
  { State.reset with config := c, program := prog, schedule := sched }

/-- The states that some platform, program and schedule lead to from reset (70_reset_and_hazards.md R181). -/
inductive Reachable : State → Prop where
  | start (c : Config) (prog : List HostOp) (sched : List Agent) : Reachable (loaded c prog sched)
  | next (s t : State) : Reachable s → step s = .next t → Reachable t

/-- The five invariants of 10_state.md R37. -/
abbrev SequencerInv (s : State) : Prop :=
  (s.phase = .div → s.cnt.toNat ≤ 255 ∧ s.dvr ≠ 0 ∧ s.racc.toNat < s.dvr.toNat) ∧
  ((s.phase = .mulOnly ∨ s.phase = .mulThenDiv) → s.cnt = 0) ∧
  (s.phase = .mulThenDiv → s.dvr ≠ 0) ∧
  (s.done = true → s.phase = .idle) ∧
  s.racc.toNat < 2 ^ 128

/-- What MULDIV's acceptance leaves until its multiply step: cleared accumulators (42_divider.md R134). -/
abbrev PendingDivideInv (s : State) : Prop :=
  s.phase = .mulThenDiv → s.racc = 0 ∧ s.qacc = Limbs4.zero

/-- The top `s.cnt` bits of the dividend, `n_k` of 42_divider.md R140. -/
def dividedSoFar (s : State) : Nat := join4 s.dvd / 2 ^ (256 - s.cnt.toNat)

/-- The correctness invariant of 42_divider.md R140. -/
abbrev DivisionInv (s : State) : Prop :=
  s.phase = .div →
    s.racc.toNat = dividedSoFar s % s.dvr.toNat ∧
    join4 s.qacc = dividedSoFar s / s.dvr.toNat * 2 ^ (256 - s.cnt.toNat)

/-- STATUS.ERR holds NONE or a code that 60_exceptions.md R160 calls reachable. -/
abbrev ErrInv (s : State) : Prop := s.err = 0 ∨ s.err = 1 ∨ s.err = 4 ∨ s.err = 5

/-- All the invariants together. -/
abbrev CoreInv (s : State) : Prop := SequencerInv s ∧ PendingDivideInv s ∧ DivisionInv s ∧ ErrInv s

/-- No statement of the host program is left: its run is over, at this state or before it (70_reset_and_hazards.md R192). -/
@[simp] abbrev RunEnded (s : State) : Prop := s.program = []

/-- The step from `s` to `t` performs the host program's last statement: its last access or, for a last `poll`, the read that
gives BUSY = 0 (70_reset_and_hazards.md R192, 30_encoding.md R84). -/
abbrev PerformsLastStatement (s t : State) : Prop := step s = .next t ∧ s.program ≠ [] ∧ t.program = []

/-- The state right after the step that performs the last statement, if that is one of the next `k` steps: the end state of
70_reset_and_hazards.md R192, whose core may be busy. A program without a statement has none (log 21). -/
def endStateWithin : Nat → State → Option State
  | 0, _ => none
  | k + 1, s =>
    match step s with
    | .next t => if s.program ≠ [] ∧ t.program = [] then some t else endStateWithin k t
    | .fault _ => none
    | .refused _ => none

/-- `e` is the end state of the run that begins in `s` (70_reset_and_hazards.md R192). -/
abbrev EndState (s e : State) : Prop := ∃ k : Nat, endStateWithin k s = some e

/-- The run that begins in `s` ends in `e` and is a successful one: no host fault up to its end (20_memory.md R55,
70_reset_and_hazards.md R192). -/
abbrev RunSucceeded (s e : State) : Prop := EndState s e ∧ e.hostFault = false

/-- The next step is the host's. -/
@[simp] abbrev HostTurn (s : State) : Prop := s.schedule.head? = some .host

/-- The next step is a reset. -/
@[simp] abbrev ResetTurn (s : State) : Prop := s.schedule.head? = some .reset

/-- The next step is the sequencer's: scheduled, or the schedule is used up. -/
@[simp] abbrev CoreTurn (s : State) : Prop := s.schedule.head? = some .core ∨ s.schedule = []

/-- The next step is the host's, and it is the access `acc`, after which the schedule and the program go on with `rest` and
`ops`. -/
@[simp] abbrev NextAccess (s : State) (acc : Access) (rest : List Agent) (ops : List HostOp) : Prop :=
  s.schedule = .host :: rest ∧ s.program = .access acc :: ops

/-- The state in which the access at the host's turn has been taken from the schedule and the program, and answered. -/
@[simp] abbrev answered (s : State) (rest : List Agent) (ops : List HostOp) (r : Response) : State :=
  { s with schedule := rest, program := ops, responses := r :: s.responses }

/-- The next step is a host step that writes a compute command, and the command is accepted (30_encoding.md R75). -/
abbrev AcceptsNext (s : State) : Prop :=
  s.phase = .idle ∧ ∃ w rest ops, NextAccess s (.write (s.config.windowBase + 0xA0) 8 w) rest ops ∧
    (decode w = .command .mul ∨ ((decode w = .command .div ∨ decode w = .command .muldiv) ∧ join2 s.dv ≠ 0))

/-- A command ends at the step from `s` to `t`: the core step that sets the phase back to IDLE or, for NOP, CLEAR and a rejected
command, its own host step (70_reset_and_hazards.md R192). A reset does not end a command but abandons it (R191). -/
abbrev CommandEnds (s t : State) : Prop :=
  step s = .next t ∧
    ((CoreTurn s ∧ s.phase ≠ .idle ∧ t.phase = .idle) ∨
      (¬ AcceptsNext s ∧ ∃ w rest ops, NextAccess s (.write (s.config.windowBase + 0xA0) 8 w) rest ops))

/-- The reads that 20_memory.md R52 admits, by offset and size. -/
@[simp] abbrev AdmittedRead (off size : Nat) : Prop := size = 8 ∧ off % 8 = 0 ∧ (off ≤ 0x98 ∨ off = 0xA8)

/-- The writes that 20_memory.md R52 admits, by offset and size. -/
@[simp] abbrev AdmittedWrite (off size : Nat) : Prop := size = 8 ∧ off % 8 = 0 ∧ (off ≤ 0x48 ∨ off = 0xA0)

/-- The operand registers A0 to N3 are the same. -/
@[simp] abbrev SameOperands (s t : State) : Prop := t.a = s.a ∧ t.b = s.b ∧ t.dv = s.dv ∧ t.n = s.n

/-- The result registers P0 to RM1 are the same. -/
@[simp] abbrev SameResults (s t : State) : Prop := t.p = s.p ∧ t.q = s.q ∧ t.rm = s.rm

/-- The internal state of 10_state.md R32 is the same. -/
@[simp] abbrev SameInternal (s t : State) : Prop :=
  t.phase = s.phase ∧ t.opa = s.opa ∧ t.opb = s.opb ∧ t.dvr = s.dvr ∧ t.dvd = s.dvd ∧ t.racc = s.racc ∧
    t.qacc = s.qacc ∧ t.cnt = s.cnt

/-- The host fault record, the platform, the host's program, the schedule and the port's record are the same. -/
@[simp] abbrev SameSurroundings (s t : State) : Prop :=
  t.hostFault = s.hostFault ∧ t.config = s.config ∧ t.program = s.program ∧ t.schedule = s.schedule ∧
    t.responses = s.responses

end Sys2Proof.Machine
end

