-- ==== Sys2Proof/Certificates/Slice0/Obligations.lean ====
section
/-! DEFINITION. What is claimed of the model: one proposition each, with the rule of the spec it formalises. -/

open Sys2Proof Sys2Proof.Machine

/-- O1. At the host's turn, with a 64-bit write of w to CMD first in its program and w decoding to a command i, step is
exec i in the same host step, at the state in which that access has been taken and acknowledged (that the port
acknowledges every CMD write is the model's reading, log 6). (R28, R52, R70, log 6) -/
def Obligations.StepRunsDecodedCommand : Prop :=
  ∀ (s : State) (rest : List Agent) (ops : List HostOp) (w : Word) (i : Instr),
    NextAccess s (.write (s.config.windowBase + 0xA0) 8 w) rest ops → decode w = .command i →
    step s = exec i (answered s rest ops .ack)

/-- O2. For every state, every 64-bit table word w that the decoder reads as a command i is run by the very next step
after withFetchWord: step is exec i at the state before, with one more acknowledged write in the port's record. How a
program is loaded is the model's choice (log 4), the acknowledgement its reading (log 6). (30_encoding.md section 1,
log 4, log 6) -/
def Obligations.FetchedWordRunsAsTheNextCommand : Prop :=
  ∀ (s : State) (w : Nat) (i : Instr), decodeTableWord 64 w = some i →
    step (s.withFetchWord 64 w) = exec i { s with responses := .ack :: s.responses }

/-- O3. At the host's turn with a CMD write of a word w that is illegal (RSVD not 0 or OPCODE above 0x04, as numbers), the
step clears DONE, records code 4 if ERR was 0, and leaves everything else of the core as it was, in every phase. That
the port acknowledges the write, as it does every admitted write (R52), is the model's reading (log 6). (R76, R52, log
6) -/
def Obligations.IllegalWordIsRejected : Prop :=
  ∀ (s : State) (rest : List Agent) (ops : List HostOp) (w : Word),
    NextAccess s (.write (s.config.windowBase + 0xA0) 8 w) rest ops →
    (w.toNat / 2 ^ 8 ≠ 0 ∨ 0x05 ≤ w.toNat % 2 ^ 8) →
    step s = .next { answered s rest ops .ack with done := false, err := if s.err = 0 then 4 else s.err }

/-- O4. The words 0x0 to 0x4, written out as 64 bits, decode to NOP, MUL, DIV, MULDIV and CLEAR; 0x5, 0xFF, 0x100 and
0x8000000000000001 are illegal. (R72, 30_encoding.md section 1, 95_test_vectors.md V-C7 to V-C10) -/
def Obligations.DecodeSpecWords : Prop :=
  decode 0x0000000000000000#64 = .command .nop ∧ decode 0x0000000000000001#64 = .command .mul ∧
    decode 0x0000000000000002#64 = .command .div ∧ decode 0x0000000000000003#64 = .command .muldiv ∧
    decode 0x0000000000000004#64 = .command .clear ∧ decode 0x0000000000000005#64 = .illegal ∧
    decode 0x00000000000000FF#64 = .illegal ∧ decode 0x0000000000000100#64 = .illegal ∧
    decode 0x8000000000000001#64 = .illegal

/-- O5. For every word w and command i, w decodes to i exactly when w equals the encoder's word of i; w is illegal exactly
when w is none of the numbers 0 to 4, that is exactly when valid_cmd fails; and the encoder's words are the match
values 0, 1, 2, 3 and 4. (R73, R74) -/
def Obligations.DecodeIsExactOnEveryWord : Prop :=
  (∀ (w : Word) (i : Instr), decode w = .command i ↔ w = encode i) ∧
    (∀ w : Word, decode w = .illegal ↔ 4 < w.toNat) ∧
    (∀ w : Word, decode w = .illegal ↔ ¬ (w.toNat / 2 ^ 8 = 0 ∧ w.toNat % 2 ^ 8 ≤ 0x04)) ∧
    (∀ w : Word, validCmd w = true ↔ decode w ≠ .illegal) ∧
    (encode .nop).toNat = 0 ∧ (encode .mul).toNat = 1 ∧ (encode .div).toNat = 2 ∧ (encode .muldiv).toNat = 3 ∧
    (encode .clear).toNat = 4

/-- O6. For every list of bytes and every well-formed command i, the decoder of bytes answers i exactly when the list is
the eight little-endian lanes of the encoder's word of i; so decoding what was encoded gives the command back, and no
other byte string does. The core sees no bytes: a decoder of bytes, and its reading of them as the lanes of R57, lane
0 first, is the model's (log 16). (R57, R70, R78, 30_encoding.md section 1, log 16) -/
def Obligations.ByteStringDecodesToOneEncodingOnly : Prop :=
  ∀ (bs : List Byte) (i : Instr), i.wf = true → (decodeBytes bs = .command i ↔ bs = lanesOf (encode i))

/-- O7. For every word, the bit j of lane k (k, j at most 7) is bit 8k+j of the word, and the number the eight lanes hold
is the word. (R57) -/
def Obligations.ByteLanesHoldTheWord : Prop :=
  ∀ w : Word, (∀ k j : Nat, k ≤ 7 → j ≤ 7 → (laneOf w k).getLsbD j = w.getLsbD (8 * k + j)) ∧
    (lanesOf w).length = 8 ∧ natOfLanes (lanesOf w) = w.toNat

/-- O8. hi(v)*2^64 + lo(v) = v for every v, and below 2^128 both are limbs; join2 undoes split below 2^128; join4 undoes
limbs4 below 2^256; limbs4 undoes join4 and split undoes join2 on every limb array; join2 and join4 are injective. The
example of R101 holds. (R101, R104) -/
def Obligations.SplitAndJoinAreInverse : Prop :=
  (∀ v : Nat, hi v * 2 ^ 64 + lo v = v) ∧
    (∀ v : Nat, v < 2 ^ 128 → hi v < 2 ^ 64 ∧ lo v < 2 ^ 64 ∧ split v = (v / 2 ^ 64, v % 2 ^ 64)) ∧
    (∀ v : Nat, v < 2 ^ 128 → join2 ⟨BitVec.ofNat 64 (lo v), BitVec.ofNat 64 (hi v)⟩ = v) ∧
    (∀ v : Nat, v < 2 ^ 256 → join4 (limbs4 v) = v) ∧
    (∀ x : Limbs4, limbs4 (join4 x) = x) ∧
    (∀ x : Limbs2, split (join2 x) = (x.l1.toNat, x.l0.toNat)) ∧
    (∀ x y : Limbs2, join2 x = join2 y → x = y) ∧
    (∀ x y : Limbs4, join4 x = join4 y → x = y) ∧
    split 0x218e995ce2c577fb59bed27f46ff2826 = (0x218e995ce2c577fb, 0x59bed27f46ff2826)

/-- O9. For every limb and every position 0 to 63, bit(L, p) is 1 exactly where the limb's bit p is set, and equals
shifting right by p and masking bit 0. The two examples of R105 hold. (R105) -/
def Obligations.BitExtractionEqualsShiftAndMask : Prop :=
  (∀ (x : Word) (p : Nat), p ≤ 63 → bitAt x p = (if x.getLsbD p then 1 else 0) ∧ bitAt x p = ((x >>> p) &&& 1#64).toNat) ∧
    bitAt 0x02a2007d40a32151#64 57 = 1 ∧ bitAt 0x02a2007d40a32151#64 63 = 0

/-- O10. For every limb and position 0 to 63 whose bit is 0, setbit(L, p) is L + 2^p as a number, is still a limb, equals
L OR 2^p, and sets bit p and no other. The example of R106 holds. (R106) -/
def Obligations.SettingAClearBitAddsItsWeight : Prop :=
  (∀ (x : Word) (p : Nat), p ≤ 63 → bitAt x p = 0 →
      (setBitAt x p).toNat = x.toNat + 2 ^ p ∧ x.toNat + 2 ^ p < 2 ^ 64 ∧ setBitAt x p = x ||| BitVec.ofNat 64 (2 ^ p) ∧
      ∀ j : Nat, j ≤ 63 → bitAt (setBitAt x p) j = if j = p then 1 else bitAt x j) ∧
    setBitAt 0#64 63 = 0x8000000000000000#64

/-- O11. For k from 0 to 255, the limb is 3 - k div 64, the position is 63 - k mod 64, the bit read there is bit 255-k of
the dividend, and setting that bit of a clear position of a limb array adds 2^(255-k), the same position, to its
value. (R132) -/
def Obligations.IterationReadsTheDividendFromTheTop : Prop :=
  ∀ (k : Nat) (x : Limbs4), k ≤ 255 →
    (iterLimb k).val = 3 - k / 64 ∧ iterPos k = 63 - k % 64 ∧
    bitAt (limbOf x (iterLimb k)) (iterPos k) = join4 x / 2 ^ (255 - k) % 2 ∧
    (bitAt (limbOf x (iterLimb k)) (iterPos k) = 0 →
      join4 (setLimb x (iterLimb k) (setBitAt (limbOf x (iterLimb k)) (iterPos k))) = join4 x + 2 ^ (255 - k))

/-- O12. For all a and b below 2^128 the four limbs of mul128, weighted, are exactly a*b, and they are the limbs of a*b;
the carry check of R115 passes. (R110) -/
def Obligations.MultiplierIsExact : Prop :=
  ∀ a b : Nat, a < 2 ^ 128 → b < 2 ^ 128 →
    join4 (mul128 a b) = a * b ∧ mul128 a b = limbs4 (a * b) ∧ checkMul a b = true

/-- O13. For all a, b below 2^128: each partial product is at most (2^64-1)^2 with high half at most 2^64-2 and low half
at most 2^64-1; s1 is at most 3*2^64-4, s2 at most 3*2^64-3; carry1 and carry2 are at most 2; limb_3 is below 2^64.
Each of the carries 0, 1, 2 is reached by both carry1 and carry2. (R116) -/
def Obligations.MultiplierCarryBounds : Prop :=
  (∀ a b : Nat, a < 2 ^ 128 → b < 2 ^ 128 →
      (∀ v ∈ [lo a * lo b, lo a * hi b, hi a * lo b, hi a * hi b],
        v ≤ 2 ^ 128 - 2 ^ 65 + 1 ∧ hi v ≤ 2 ^ 64 - 2 ∧ lo v ≤ 2 ^ 64 - 1) ∧
      sum1 a b ≤ 3 * 2 ^ 64 - 4 ∧ carry1 a b ≤ 2 ∧ sum1 a b < 2 ^ 66 ∧
      sum2 a b ≤ 3 * 2 ^ 64 - 3 ∧ carry2 a b ≤ 2 ∧ sum2 a b < 2 ^ 66 ∧ limb3 a b < 2 ^ 64) ∧
    (∀ c : Nat, c ≤ 2 → ∃ a b : Nat, a < 2 ^ 128 ∧ b < 2 ^ 128 ∧ carry1 a b = c) ∧
    (∀ c : Nat, c ≤ 2 → ∃ a b : Nat, a < 2 ^ 128 ∧ b < 2 ^ 128 ∧ carry2 a b = c)

/-- O14. mul128(0, b) is zero and mul128(1, b) is b for every b below 2^128; the products of 2^64-1, 2^64 and 2^128-1 with
themselves are the limbs R118 gives; mul128 is commutative on all operands below 2^128. (R118) -/
def Obligations.MultiplierCornerCases : Prop :=
  (∀ b : Nat, b < 2 ^ 128 → mul128 0 b = ⟨0, 0, 0, 0⟩ ∧
      mul128 1 b = ⟨BitVec.ofNat 64 (lo b), BitVec.ofNat 64 (hi b), 0, 0⟩) ∧
    mul128 (2 ^ 64 - 1) (2 ^ 64 - 1) = ⟨1, BitVec.ofNat 64 (2 ^ 64 - 2), 0, 0⟩ ∧
    mul128 (2 ^ 64) (2 ^ 64) = ⟨0, 0, 1, 0⟩ ∧
    mul128 (2 ^ 128 - 1) (2 ^ 128 - 1) =
      ⟨1, 0, BitVec.ofNat 64 (2 ^ 64 - 2), BitVec.ofNat 64 (2 ^ 64 - 1)⟩ ∧
    (∀ a b : Nat, a < 2 ^ 128 → b < 2 ^ 128 → mul128 a b = mul128 b a)

/-- O15. exec of NOP answers the same state, whatever the phase, the flags and the registers. (R150) -/
def Obligations.NopHasNoEffect : Prop :=
  ∀ s : State, exec .nop s = .next s

/-- O16. exec of CLEAR answers the state with ERR = 0 and DONE = 0 and everything else as it was, a command in progress
included. (R151) -/
def Obligations.ClearResetsErrAndDoneOnly : Prop :=
  ∀ s : State, exec .clear s = .next { s with err := 0, done := false }

/-- O17. In every idle state exec of MUL answers the state with DONE = 0, s.opa = {A1, A0}, s.opb = {B1, B0}, s.cnt = 0,
phase MUL_ONLY, and everything else as it was. (R113, R75) -/
def Obligations.MulIsAcceptedWhenIdle : Prop :=
  ∀ s : State, s.phase = .idle →
    exec .mul s = .next { s with
      done := false, opa := s.a.l1 ++ s.a.l0, opb := s.b.l1 ++ s.b.l0, cnt := 0, phase := .mulOnly }

/-- O18. In every idle state with {DV1, DV0} not 0, exec of DIV answers the state with DONE = 0, s.dvd = N, s.dvr = {DV1,
DV0}, s.racc = 0, s.qacc = 0, s.cnt = 0, phase DIV, and everything else as it was. (R133, R75) -/
def Obligations.DivIsAcceptedWhenIdle : Prop :=
  ∀ s : State, s.phase = .idle → s.dv.l1 ++ s.dv.l0 ≠ 0#128 →
    exec .div s = .next { s with
      done := false, dvd := s.n, dvr := s.dv.l1 ++ s.dv.l0, racc := 0, qacc := ⟨0, 0, 0, 0⟩, cnt := 0,
      phase := .div }

/-- O19. In every idle state with {DV1, DV0} not 0, exec of MULDIV answers the state with DONE = 0, s.opa, s.opb and s.dvr
latched, s.racc = 0, s.qacc = 0, s.cnt = 0, phase MUL_THEN_DIV, and everything else as it was. (R134, R75) -/
def Obligations.MuldivIsAcceptedWhenIdle : Prop :=
  ∀ s : State, s.phase = .idle → s.dv.l1 ++ s.dv.l0 ≠ 0#128 →
    exec .muldiv s = .next { s with
      done := false, opa := s.a.l1 ++ s.a.l0, opb := s.b.l1 ++ s.b.l0, dvr := s.dv.l1 ++ s.dv.l0, racc := 0,
      qacc := ⟨0, 0, 0, 0⟩, cnt := 0, phase := .mulThenDiv }

/-- O20. In every busy state, whatever the divisor, exec of MUL, DIV or MULDIV clears DONE, records code 5 if ERR was 0,
and changes nothing else; NOP and CLEAR still have their effect. (R186, R75, R164) -/
def Obligations.ComputeWhileBusyIsRejected : Prop :=
  ∀ (s : State) (i : Instr), s.phase ≠ .idle →
    (i = .mul ∨ i = .div ∨ i = .muldiv →
      exec i s = .next { s with done := false, err := if s.err = 0 then 5 else s.err }) ∧
    exec .nop s = .next s ∧ exec .clear s = .next { s with err := 0, done := false }

/-- O21. In every idle state with DV0 = DV1 = 0, exec of DIV or MULDIV clears DONE, records code 1 if ERR was 0, and
changes nothing else: no result register, no internal state. (R142, R75, R164) -/
def Obligations.ZeroDivisorIsRejected : Prop :=
  ∀ (s : State) (i : Instr), s.phase = .idle → s.dv.l0 = 0 → s.dv.l1 = 0 → i = .div ∨ i = .muldiv →
    exec i s = .next { s with done := false, err := if s.err = 0 then 1 else s.err }

/-- O22. For every word and state: if ERR was 0, after the CMD write ERR is 4 if the word is above 4; else 5 if the word
is 1, 2 or 3 and the core is busy; else 1 if the word is 2 or 3 and the divisor is 0; else 0. If ERR was not 0 it
keeps its code, unless the word is CLEAR. The write always completes. (R165) -/
def Obligations.CmdWriteChecksInOrder : Prop :=
  ∀ (w : Word) (s : State), ∃ t : State, cmdWrite w s = .next t ∧
    (s.err ≠ 0 → w.toNat ≠ 4 → t.err = s.err) ∧
    (s.err = 0 → t.err =
      if 4 < w.toNat then 4
      else if (w.toNat = 1 ∨ w.toNat = 2 ∨ w.toNat = 3) ∧ s.phase ≠ .idle then 5
      else if (w.toNat = 2 ∨ w.toNat = 3) ∧ s.dv.l0 = 0 ∧ s.dv.l1 = 0 then 1
      else 0) ∧
    (w.toNat = 4 → t.err = 0)

/-- O23. For every error and state, raise answers the state whose ERR is the error's code of R160 (1 to 5) if ERR was 0
and the old ERR otherwise, with everything else as it was. (R163, R160) -/
def Obligations.FirstErrorWins : Prop :=
  ∀ s : State,
    raise .invalidDivisor s = { s with err := if s.err = 0 then 1 else s.err } ∧
    raise .operandOutOfRange s = { s with err := if s.err = 0 then 2 else s.err } ∧
    raise .invariantViolation s = { s with err := if s.err = 0 then 3 else s.err } ∧
    raise .illegalCommand s = { s with err := if s.err = 0 then 4 else s.err } ∧
    raise .busyReject s = { s with err := if s.err = 0 then 5 else s.err }

/-- O24. For every command, state and ERR value e, running the command with ERR = e and with the state's own ERR gives
next states that differ in ERR only, and every later core step of the command likewise: a held error never blocks.
(R163) -/
def Obligations.HeldErrorDoesNotBlockCommands : Prop :=
  ∀ (i : Instr) (s : State) (e : BitVec 4),
    (∃ t u : State, exec i s = .next t ∧ exec i { s with err := e } = .next u ∧ { u with err := 0 } = { t with err := 0 }) ∧
    (∀ t : State, coreStep s = .next t →
      ∃ u : State, coreStep { s with err := e } = .next u ∧ { u with err := 0 } = { t with err := 0 })

/-- O25. For every command and state exec answers a next state in which every register but STATUS reads as before, the
port, the program and the schedule are as before, a busy core's internal state is as before (for NOP and CLEAR in
every phase), and DONE and ERR are as before for NOP. (R24, R25, R26, R27, R152, R164) -/
def Obligations.CommandFrame : Prop :=
  ∀ (i : Instr) (s : State), ∃ t : State, exec i s = .next t ∧
    (∀ r : Reg, r ≠ .status → readReg t r = readReg s r) ∧
    SameOperands s t ∧ SameResults s t ∧ SameSurroundings s t ∧
    (s.phase ≠ .idle ∨ i = .nop ∨ i = .clear → SameInternal s t) ∧
    (i ≠ .nop → t.done = false) ∧
    (i = .nop → t.done = s.done ∧ t.err = s.err) ∧
    (i ≠ .clear → s.err ≠ 0 → t.err = s.err)

/-- O26. With core at the head of the schedule, step is coreStep after the schedule has moved on; with the schedule used
up, step is coreStep; and coreStep of an idle core is the same state. That the schedule is a list and that it may be
used up is the model's choice (log 1, log 2). (R36, R176, log 1, log 2) -/
def Obligations.CoreTurnTakesOneCoreStep : Prop :=
  (∀ (s : State) (rest : List Agent), s.schedule = .core :: rest → step s = coreStep { s with schedule := rest }) ∧
    (∀ s : State, s.schedule = [] → step s = coreStep s) ∧
    (∀ s : State, s.phase = .idle → coreStep s = .next s)

/-- O27. For every state in phase MUL_ONLY, coreStep answers the state with P = the limbs of s.opa * s.opb, DONE = 1 and
phase IDLE, and everything else as it was; the check of R115 never fails. (R114, R115, R117) -/
def Obligations.MultiplyStepWritesTheProduct : Prop :=
  ∀ s : State, s.phase = .mulOnly →
    coreStep s = .next { s with p := limbs4 (s.opa.toNat * s.opb.toNat), done := true, phase := .idle }

/-- O28. For every state in phase MUL_THEN_DIV, coreStep answers the state with P and s.dvd = the limbs of s.opa * s.opb
and phase DIV, and everything else as it was; DONE is not changed. (R135, R115, R117) -/
def Obligations.MuldivMultiplyStepStartsTheDivision : Prop :=
  ∀ s : State, s.phase = .mulThenDiv →
    coreStep s = .next { s with
      p := limbs4 (s.opa.toNat * s.opb.toNat), dvd := limbs4 (s.opa.toNat * s.opb.toNat), phase := .div }

/-- O29. In phase DIV with k = s.cnt below 255, s.racc below s.dvr and quotient bit 255-k still 0: coreStep answers a next
state with t = 2*s.racc + bit (255-k) of the dividend, s.racc = t - s.dvr and 2^(255-k) added to the quotient if t >=
s.dvr, s.racc = t and the quotient unchanged otherwise, s.cnt = k + 1, and everything else as it was. (R136, R138,
R139) -/
def Obligations.DivisionIterationShiftsAndSubtracts : Prop :=
  ∀ (s : State) (t : Nat), s.phase = .div → s.cnt.toNat < 255 → s.racc.toNat < s.dvr.toNat →
    join4 s.qacc / 2 ^ (255 - s.cnt.toNat) % 2 = 0 →
    t = 2 * s.racc.toNat + join4 s.dvd / 2 ^ (255 - s.cnt.toNat) % 2 →
    ∃ u : State, coreStep s = .next u ∧
      u = { s with racc := u.racc, qacc := u.qacc, cnt := u.cnt } ∧ u.cnt.toNat = s.cnt.toNat + 1 ∧
      u.racc.toNat = (if s.dvr.toNat ≤ t then t - s.dvr.toNat else t) ∧ u.racc.toNat < s.dvr.toNat ∧
      join4 u.qacc = join4 s.qacc + (if s.dvr.toNat ≤ t then 2 ^ (255 - s.cnt.toNat) else 0)

/-- O30. In phase DIV with s.cnt = 255, s.racc below s.dvr and quotient bit 0 still 0: coreStep answers a next state in
which, with t = 2*s.racc + bit 0 of the dividend, the quotient registers hold s.qacc plus 1 if t >= s.dvr, the
remainder registers hold t reduced once by s.dvr, DONE = 1, phase IDLE, s.cnt = 256, s.racc and s.qacc hold the same
two results, and everything else is as it was. (R136, R137) -/
def Obligations.LastIterationWritesQuotientAndRemainder : Prop :=
  ∀ (s : State) (t : Nat), s.phase = .div → s.cnt.toNat = 255 → s.racc.toNat < s.dvr.toNat →
    join4 s.qacc % 2 = 0 → t = 2 * s.racc.toNat + join4 s.dvd % 2 →
    ∃ u : State, coreStep s = .next u ∧
      u = { s with
        q := u.q, rm := u.rm, done := true, phase := .idle, racc := u.racc, qacc := u.qacc, cnt := u.cnt } ∧
      u.cnt.toNat = 256 ∧ u.q = u.qacc ∧ join2 u.rm = u.racc.toNat ∧
      join4 u.q = join4 s.qacc + (if s.dvr.toNat ≤ t then 1 else 0) ∧
      join2 u.rm = (if s.dvr.toNat ≤ t then t - s.dvr.toNat else t)

/-- O31. From every idle state exec of MUL answers a busy state from which one core step answers an idle state with DONE =
1, join4(P) = {A1,A0} * {B1,B0} as they stood at the CMD write, and the operand registers, Q, RM, ERR and the host's
side unchanged. (R113, R114, R117, R190) -/
def Obligations.MulCompletesAfterOneCoreStep : Prop :=
  ∀ s : State, s.phase = .idle → ∃ s₁ s₂ : State, exec .mul s = .next s₁ ∧ s₁.phase = .mulOnly ∧
    coreRun 1 s₁ = .next s₂ ∧ s₂.phase = .idle ∧ s₂.done = true ∧ join4 s₂.p = join2 s.a * join2 s.b ∧
    SameOperands s s₂ ∧ s₂.q = s.q ∧ s₂.rm = s.rm ∧ s₂.err = s.err ∧ SameSurroundings s s₂

/-- O32. From every idle state with a nonzero divisor d, exec of DIV (n = the N registers, 256 steps) or of MULDIV (n =
{A1,A0} * {B1,B0}, 257 steps) answers a state that stays busy for every smaller number of core steps, and after
exactly that number is idle with DONE = 1, join4(Q) = n div d, {RM1, RM0} = n mod d; P holds the product after MULDIV
and its old value after DIV; the operand registers, ERR and the host's side are unchanged. (R143, R140, R24, R135) -/
def Obligations.DividingCommandsCompleteOnTheirLastCoreStep : Prop :=
  ∀ (i : Instr) (steps n : Nat) (s : State), s.phase = .idle → join2 s.dv ≠ 0 →
    (i = .div ∧ steps = 256 ∧ n = join4 s.n) ∨ (i = .muldiv ∧ steps = 257 ∧ n = join2 s.a * join2 s.b) →
    ∃ s₁ s₂ : State, exec i s = .next s₁ ∧
      (∀ k : Nat, k < steps → ∃ t : State, coreRun k s₁ = .next t ∧ t.phase ≠ .idle) ∧
      coreRun steps s₁ = .next s₂ ∧ s₂.phase = .idle ∧ s₂.done = true ∧
      join4 s₂.q = n / join2 s.dv ∧ join2 s₂.rm = n % join2 s.dv ∧
      (i = .div → s₂.p = s.p) ∧ (i = .muldiv → join4 s₂.p = n) ∧
      SameOperands s s₂ ∧ s₂.err = s.err ∧ SameSurroundings s s₂

/-- O33. From every idle state, DIV with nonzero divisor completes after 256 core steps with: quotient and remainder 0 if
n = 0; (n, 0) if d = 1; (0, n) if n < d; (1, 0) if n = d; (2^128+1, 0) for n = 2^256-1, d = 2^128-1; (2^255-1, 1) for
n = 2^256-1, d = 2. (R141) -/
def Obligations.DivisionCornerCases : Prop :=
  ∀ (s : State) (n d : Nat), s.phase = .idle → n = join4 s.n → d = join2 s.dv → d ≠ 0 →
    ∃ s₁ t : State, exec .div s = .next s₁ ∧ coreRun 256 s₁ = .next t ∧
      (n = 0 → join4 t.q = 0 ∧ join2 t.rm = 0) ∧
      (d = 1 → join4 t.q = n ∧ join2 t.rm = 0) ∧
      (n < d → join4 t.q = 0 ∧ join2 t.rm = n) ∧
      (n = d → join4 t.q = 1 ∧ join2 t.rm = 0) ∧
      (n = 2 ^ 256 - 1 → d = 2 ^ 128 - 1 → t.q = ⟨1, 0, 1, 0⟩ ∧ join2 t.rm = 0) ∧
      (n = 2 ^ 256 - 1 → d = 2 → join4 t.q = 2 ^ 255 - 1 ∧ join2 t.rm = 1)

/-- O34. If a state meets the five invariants of R37, has cleared accumulators in phase MUL_THEN_DIV, in phase DIV has
s.racc = n_k mod d and join4(s.qacc) = (n_k div d) * 2^(256-k) with k = s.cnt (R140), and ERR holds 0, 1, 4 or 5, then
so does every state a step answers, whatever the schedule and the host's program. (R37, R138, R139, R140, R160, R161) -/
def Obligations.EveryStepKeepsTheInvariants : Prop :=
  ∀ s t : State, CoreInv s → step s = .next t → CoreInv t

/-- O35. The reset state meets the invariants of R37 and R140 and the legality of ERR, with any platform, program and
schedule (loading them from outside is the model's choice, log 4). (R37, R180) -/
def Obligations.ResetMeetsTheInvariants : Prop :=
  CoreInv State.reset ∧
    ∀ (c : Config) (prog : List HostOp) (sched : List Agent), CoreInv (loaded c prog sched)

/-- O36. In every state that some platform, host program and schedule reach from reset: in phase DIV s.cnt is at most 255,
s.dvr is not 0 and s.racc < s.dvr; in the multiply phases s.cnt is 0; in phase MUL_THEN_DIV s.dvr is not 0; DONE = 1
implies IDLE; s.racc < 2^128. (R37) -/
def Obligations.ReachableStatesMeetR37 : Prop :=
  ∀ s : State, Reachable s →
    (s.phase = .div → s.cnt.toNat ≤ 255 ∧ s.dvr ≠ 0 ∧ s.racc.toNat < s.dvr.toNat) ∧
    (s.phase = .mulOnly ∨ s.phase = .mulThenDiv → s.cnt = 0) ∧
    (s.phase = .mulThenDiv → s.dvr ≠ 0) ∧
    ((statusWord s).getLsbD 1 = true → s.phase = .idle) ∧
    s.racc.toNat < 2 ^ 128

/-- O37. In every state that some platform, host program and schedule reach from reset, ERR holds 0, 1, 4 or 5; so codes 2
and 3 and the reserved codes 6 to 15 never appear; and at any core step in a multiply phase the multiplier's check
passes, and at any division step the remainder after it is below the divisor. (R161, R162, R160) -/
def Obligations.ReachableErrIsNeverInvariantViolation : Prop :=
  ∀ s : State, Reachable s →
    (s.err.toNat = 0 ∨ s.err.toNat = 1 ∨ s.err.toNat = 4 ∨ s.err.toNat = 5) ∧
    limb3 s.opa.toNat s.opb.toNat < 2 ^ 64 ∧ (s.phase = .div → nextRem s < s.dvr.toNat)

/-- O38. From every state that meets the invariants of R37 and R140, whatever the schedule and the host's program, step
answers a next state; the model's one fault (log 8) is out of reach. (R36, R37, log 8) -/
def Obligations.ReachableStepsNeverStop : Prop :=
  ∀ s : State, CoreInv s → ∃ t : State, step s = .next t

/-- O39. In phase DIV, coreStep faults exactly when s.cnt is above 255 (the model's choice, log 8). With k = s.cnt in
range, any accumulator and r the t or t - s.dvr of R136, it answers a next state: s.cnt = k + 1, s.qacc = the q' of
R136, s.racc = r if 129 bits hold r (else a free value, log 9); below 255 all else is as before; at 255 with r <
s.dvr, Q, RM, DONE and IDLE are written; at 255 with r >= s.dvr the defensive check of R137 records code 3 if ERR was
0 and sets IDLE, and nothing else changes (log 10). (R136, R137, R163, log 8, log 9, log 10) -/
def Obligations.DivisionStepOutsideItsRangeFaults : Prop :=
  ∀ s : State, s.phase = .div →
    (coreStep s = .fault .divisionCounterOutOfRange ↔ 255 < s.cnt.toNat) ∧
    ∀ t r : Nat, s.cnt.toNat ≤ 255 → t = 2 * s.racc.toNat + join4 s.dvd / 2 ^ (255 - s.cnt.toNat) % 2 →
      r = (if s.dvr.toNat ≤ t then t - s.dvr.toNat else t) →
      ∃ u v : State, coreStep s = .next u ∧ v = { s with racc := u.racc, qacc := nextQuo s, cnt := u.cnt } ∧
        u.cnt.toNat = s.cnt.toNat + 1 ∧ (r < 2 ^ 129 → u.racc.toNat = r) ∧
        (s.cnt.toNat < 255 → u = v) ∧
        (s.cnt.toNat = 255 → r < s.dvr.toNat → u = { v with q := nextQuo s, rm := limbs2 r, done := true, phase := .idle }) ∧
        (s.cnt.toNat = 255 → s.dvr.toNat ≤ r → u = { v with err := if s.err = 0 then 3 else s.err, phase := .idle })

/-- O40. From every busy state that meets the invariants, some number of core steps from 1 to 257 answers an idle state
with DONE = 1, and it is the first idle one. (R84, R190, R191) -/
def Obligations.BusyCoreGoesIdle : Prop :=
  ∀ s : State, CoreInv s → s.phase ≠ .idle → ∃ (k : Nat) (t : State), 1 ≤ k ∧ k ≤ 257 ∧
    coreRun k s = .next t ∧ t.phase = .idle ∧ t.done = true ∧
    ∀ (j : Nat) (u : State), j < k → coreRun j s = .next u → u.phase ≠ .idle

/-- O41. After an accepted DIV or MULDIV, for every host program and every schedule without a reset, after any number of
steps either the core is still busy with Q and RM as before the command, or it was idle at some earlier or this step
with DONE = 1, join4(Q) = n div d and {RM1, RM0} = n mod d for the n and d at the command's acceptance. (R145) -/
def Obligations.DivisionResultIsScheduleIndependent : Prop :=
  ∀ (i : Instr) (n k : Nat) (s s₁ t : State), s.phase = .idle → join2 s.dv ≠ 0 →
    (i = .div ∧ n = join4 s.n) ∨ (i = .muldiv ∧ n = join2 s.a * join2 s.b) →
    exec i s = .next s₁ → Agent.reset ∉ s₁.schedule → runFor k s₁ = .next t →
    (t.phase ≠ .idle ∧ t.q = s.q ∧ t.rm = s.rm) ∨
    ∃ (j : Nat) (u : State), j ≤ k ∧ runFor j s₁ = .next u ∧ u.phase = .idle ∧ u.done = true ∧
      join4 u.q = n / join2 s.dv ∧ join2 u.rm = n % join2 s.dv

/-- O42. After an accepted MUL, DIV or MULDIV and any number of steps of any schedule and host program, none of which is a
reset or accepts another command, if BUSY = 0 and DONE = 1 then P holds the product (MUL, MULDIV) and Q and RM hold
the quotient and the remainder (DIV, MULDIV) of the operands at acceptance; so they stay until the next accepted
command or a reset; that they stay beyond it until its completion step is ResultRegistersChangeAtCompletionOnly. (R66,
R24, R25, R26) -/
def Obligations.PolledResultsAreComplete : Prop :=
  ∀ (i : Instr) (k : Nat) (s s₁ t : State), s.phase = .idle →
    i = .mul ∨ ((i = .div ∨ i = .muldiv) ∧ join2 s.dv ≠ 0) → exec i s = .next s₁ →
    (∀ (j : Nat) (u : State), j < k → runFor j s₁ = .next u → ¬ ResetTurn u ∧ ¬ AcceptsNext u) →
    runFor k s₁ = .next t → (statusWord t).getLsbD 0 = false → (statusWord t).getLsbD 1 = true →
    (i = .mul ∨ i = .muldiv → join4 t.p = join2 s.a * join2 s.b) ∧
    (i = .div → join4 t.q = join4 s.n / join2 s.dv ∧ join2 t.rm = join4 s.n % join2 s.dv) ∧
    (i = .muldiv → join4 t.q = join2 s.a * join2 s.b / join2 s.dv ∧ join2 t.rm = join2 s.a * join2 s.b % join2 s.dv)

/-- O43. At the host's turn with an 8-byte read at an offset of 0x00 to 0x98 that is a multiple of 8, or 0xA8: the port
answers the value of the register of that offset (for STATUS, BUSY + 2*DONE + 16*ERR) and nothing of the core changes,
so a second read with no other step between answers the same. (R53) -/
def Obligations.AdmittedReadReturnsTheRegister : Prop :=
  ∀ (s : State) (rest : List Agent) (ops : List HostOp) (off : Nat), AdmittedRead off 8 →
    NextAccess s (.read (s.config.windowBase + off) 8) rest ops →
    ∃ (r : Reg) (v : Word), r.offset = off ∧ readReg s r = some v ∧ step s = .next (answered s rest ops (.data v)) ∧
      (off = 0xA8 → v.toNat = (if s.phase = .idle then 0 else 1) + 2 * (if s.done then 1 else 0) + 16 * s.err.toNat)

/-- O44. At the host's turn with an 8-byte write of v at an offset of 0x00 to 0x48 that is a multiple of 8: the register
of that offset then reads v, every other register (STATUS included) reads as before, and the internal state and the
host fault record are as before, busy or not. The port's record of the write is the model's (log 6). (R54, R27, R60,
log 6) -/
def Obligations.AdmittedWriteStoresOnlyItsRegister : Prop :=
  ∀ (s : State) (rest : List Agent) (ops : List HostOp) (off : Nat) (v : Word), off ≤ 0x48 → off % 8 = 0 →
    NextAccess s (.write (s.config.windowBase + off) 8 v) rest ops →
    ∃ (r : Reg) (t : State), r.offset = off ∧ r.right = .rw ∧ step s = .next t ∧ readReg t r = some v ∧
      (∀ r' : Reg, r' ≠ r → readReg t r' = readReg s r') ∧ SameInternal s t ∧ t.hostFault = s.hostFault ∧
      t.config = s.config ∧ t.schedule = rest ∧ t.program = ops ∧ t.responses = .ack :: s.responses

/-- O45. At the host's turn with an access at an offset below 0x100 that R52 does not admit (size not 8, offset not a
multiple of 8, offset 0xB0 to 0xF8, a write of an RO register, a read of CMD), the host fault is recorded, the port
answers an error without data, and no register, flag or internal element changes. That the run goes on from a bus
error is the model's reading (log 5), and the port's record is the model's (log 6). (R55, R52, log 5, log 6) -/
def Obligations.UnadmittedAccessIsABusError : Prop :=
  ∀ (s : State) (rest : List Agent) (ops : List HostOp) (acc : Access) (off size : Nat) (v : Word), off < 0x100 →
    (acc = .read (s.config.windowBase + off) size ∧ ¬ AdmittedRead off size) ∨
      (acc = .write (s.config.windowBase + off) size v ∧ ¬ AdmittedWrite off size) →
    NextAccess s acc rest ops →
    step s = .next { answered s rest ops .busError with hostFault := true }

/-- O46. If a host fault is recorded, every next state has it recorded, after a reset too (log 5); and a step that records
one is a host step whose access is in the window and not admitted by R52, and it leaves STATUS.ERR, all registers and
the internal state as they were. (R55, R166, R52, log 5) -/
def Obligations.HostFaultIsNeverCleared : Prop :=
  ∀ s t : State, step s = .next t → (s.hostFault = true → t.hostFault = true) ∧
    (s.hostFault = false → t.hostFault = true →
      (∃ (acc : Access) (off size : Nat) (rest : List Agent) (ops : List HostOp), NextAccess s acc rest ops ∧ off < 0x100 ∧
        ((acc = .read (s.config.windowBase + off) size ∧ ¬ AdmittedRead off size) ∨
          ∃ v : Word, acc = .write (s.config.windowBase + off) size v ∧ ¬ AdmittedWrite off size)) ∧
      t.err = s.err ∧ t.done = s.done ∧ SameOperands s t ∧ SameResults s t ∧ SameInternal s t)

/-- O47. At the host's turn with an access whose address is below WINDOW_BASE or at least WINDOW_BASE + 0x100, whatever
its size and kind, nothing of the core changes and no fault is recorded. That the port's record notes it as not
reached is the model's choice (log 11). (R50, log 11) -/
def Obligations.AccessOutsideTheWindowIsNotSeen : Prop :=
  ∀ (s : State) (rest : List Agent) (ops : List HostOp) (acc : Access) (addr size : Nat) (v : Word),
    acc = .read addr size ∨ acc = .write addr size v →
    (addr < s.config.windowBase ∨ s.config.windowBase + 0x100 ≤ addr) → NextAccess s acc rest ops →
    step s = .next (answered s rest ops .notReached)

/-- O48. An offset names a register exactly when it is a multiple of 8 at most 0xA8; it names the register whose offset it
is; A, B, DV, N, P, Q and RM begin at 0x00, 0x10, 0x20, 0x30, 0x50, 0x70 and 0x90, CMD is at 0xA0 and STATUS at 0xA8;
and successive limbs stand 8 bytes apart, the lower weight lower. (R20, R56, R61) -/
def Obligations.RegisterMapIsOneToOne : Prop :=
  (∀ (off : Nat) (r : Reg), regAt off = some r ↔ r.offset = off) ∧
    (∀ off : Nat, (∃ r : Reg, r.offset = off) ↔ off % 8 = 0 ∧ off ≤ 0xA8) ∧
    (∀ r r' : Reg, r.offset = r'.offset → r = r') ∧
    Reg.a0.offset = 0x00 ∧ Reg.b0.offset = 0x10 ∧ Reg.dv0.offset = 0x20 ∧ Reg.n0.offset = 0x30 ∧
    Reg.p0.offset = 0x50 ∧ Reg.q0.offset = 0x70 ∧ Reg.rm0.offset = 0x90 ∧ Reg.cmd.offset = 0xA0 ∧
    Reg.status.offset = 0xA8 ∧ Reg.a1.offset = Reg.a0.offset + 8 ∧ Reg.b1.offset = Reg.b0.offset + 8 ∧
    Reg.dv1.offset = Reg.dv0.offset + 8 ∧ Reg.n1.offset = Reg.n0.offset + 8 ∧ Reg.n2.offset = Reg.n1.offset + 8 ∧
    Reg.n3.offset = Reg.n2.offset + 8 ∧ Reg.p1.offset = Reg.p0.offset + 8 ∧ Reg.p2.offset = Reg.p1.offset + 8 ∧
    Reg.p3.offset = Reg.p2.offset + 8 ∧ Reg.q1.offset = Reg.q0.offset + 8 ∧ Reg.q2.offset = Reg.q1.offset + 8 ∧
    Reg.q3.offset = Reg.q2.offset + 8 ∧ Reg.rm1.offset = Reg.rm0.offset + 8

/-- O49. For every state: bit 0 of STATUS is 1 exactly when the phase is not IDLE, bit 1 is DONE, bits 3:2 are 0, bits 7:4
are ERR, bits 63:8 are 0, and as a number STATUS is BUSY + 2*DONE + 16*ERR. (R34) -/
def Obligations.StatusWordLayout : Prop :=
  ∀ s : State, ((statusWord s).getLsbD 0 = true ↔ s.phase ≠ .idle) ∧ (statusWord s).getLsbD 1 = s.done ∧
    (statusWord s).extractLsb' 2 2 = 0#2 ∧ (statusWord s).extractLsb' 4 4 = s.err ∧
    (statusWord s).extractLsb' 8 56 = 0#56 ∧
    (statusWord s).toNat = (if s.phase = .idle then 0 else 1) + 2 * (if s.done then 1 else 0) + 16 * s.err.toNat

/-- O50. If a step changes what an RW register reads, the step is a reset, or it is a host step whose access is an 8-byte
write to that register's offset, and the register then reads the value written. (R27, R38, R54) -/
def Obligations.OperandRegistersChangeByHostWritesOnly : Prop :=
  ∀ (s t : State) (r : Reg), r.right = .rw → step s = .next t → readReg t r ≠ readReg s r →
    ResetTurn s ∨ ∃ (v : Word) (rest : List Agent) (ops : List HostOp),
      NextAccess s (.write (s.config.windowBase + r.offset) 8 v) rest ops ∧ readReg t r = some v

/-- O51. If a step that is no reset changes P, it is a core step in a multiply phase; if it changes Q or RM, it is a core
step in phase DIV with s.cnt = 255. So an idle core's results change by reset only. (R24, R25, R26, R187) -/
def Obligations.ResultRegistersChangeAtCompletionOnly : Prop :=
  ∀ s t : State, step s = .next t → ¬ ResetTurn s →
    (t.p ≠ s.p → CoreTurn s ∧ (s.phase = .mulOnly ∨ s.phase = .mulThenDiv)) ∧
    (t.q ≠ s.q ∨ t.rm ≠ s.rm → CoreTurn s ∧ s.phase = .div ∧ s.cnt.toNat = 255)

/-- O52. At the host's turn in a busy state, whatever access the host makes, operand writes and CMD writes included, every
next state has the same phase, latches, accumulators and counter and the same P, Q and RM. (R68, R35, R184) -/
def Obligations.HostStepKeepsTheRunningCommand : Prop :=
  ∀ s t : State, HostTurn s → s.phase ≠ .idle → step s = .next t → SameInternal s t ∧ SameResults s t

/-- O53. If a step sets DONE, it is a core step that leaves a busy core idle. If a step clears DONE, it is a reset or a
host step that writes CMD with a word other than the NOP word. A host step that writes any other word than NOP to CMD
leaves DONE = 0. (R30, R75) -/
def Obligations.DoneChangesOnlyAsSpecified : Prop :=
  ∀ s t : State, step s = .next t →
    (s.done = false → t.done = true → CoreTurn s ∧ s.phase ≠ .idle ∧ t.phase = .idle) ∧
    (s.done = true → t.done = false → ResetTurn s ∨
      ∃ (w : Word) (rest : List Agent) (ops : List HostOp),
        NextAccess s (.write (s.config.windowBase + 0xA0) 8 w) rest ops ∧ w ≠ 0) ∧
    (∀ (w : Word) (rest : List Agent) (ops : List HostOp),
      NextAccess s (.write (s.config.windowBase + 0xA0) 8 w) rest ops → w ≠ 0 → t.done = false)

/-- O54. If ERR holds a code before a step and something else after it, the step is a reset, or a host step that writes
the CLEAR word to CMD, and ERR is 0 after it. (R151, R163, R168) -/
def Obligations.ErrClearsOnlyByClearOrReset : Prop :=
  ∀ s t : State, step s = .next t → s.err ≠ 0 → t.err ≠ s.err →
    t.err = 0 ∧ (ResetTurn s ∨ ∃ (rest : List Agent) (ops : List HostOp),
      NextAccess s (.write (s.config.windowBase + 0xA0) 8 4) rest ops)

/-- O55. At a reset turn, in any state, the step answers a state in which every readable register reads 0, the internal
state is IDLE and all zero, and the host fault record, the platform, the host's program, the rest of the schedule and
the port's record are as before (that these stay is the model's reading, log 5 and log 20). (R180, R181, log 5, log
20) -/
def Obligations.ResetStepClearsTheCore : Prop :=
  ∀ (s : State) (rest : List Agent), s.schedule = .reset :: rest → ∃ t : State, step s = .next t ∧
    (∀ r : Reg, r ≠ .cmd → readReg t r = some 0) ∧ t.err = 0 ∧ t.done = false ∧
    t.phase = .idle ∧ t.opa = 0 ∧ t.opb = 0 ∧ t.dvr = 0 ∧ t.dvd = ⟨0, 0, 0, 0⟩ ∧ t.racc = 0 ∧ t.qacc = ⟨0, 0, 0, 0⟩ ∧
    t.cnt = 0 ∧ SameSurroundings { s with schedule := rest } t

/-- O56. In the reset state every register but CMD reads 0, the phase is IDLE, and all internal elements are 0. (R20, R32,
R180, R181) -/
def Obligations.ResetStateReadsZero : Prop :=
  (∀ r : Reg, r ≠ .cmd → readReg State.reset r = some 0) ∧ State.reset.phase = .idle ∧ State.reset.opa = 0 ∧
    State.reset.opb = 0 ∧ State.reset.dvr = 0 ∧ State.reset.dvd = ⟨0, 0, 0, 0⟩ ∧ State.reset.racc = 0 ∧
    State.reset.qacc = ⟨0, 0, 0, 0⟩ ∧ State.reset.cnt = 0

/-- O57. Every step keeps the platform parameter, and the window's base is a multiple of 0x100 for every platform. (R6,
R50, R61) -/
def Obligations.PlatformStaysFixed : Prop :=
  (∀ s t : State, step s = .next t → t.config = s.config) ∧ (∀ c : Config, c.windowBase % 0x100 = 0)

/-- O58. With host turns scheduled, the two accesses of wr128 A, B or DV (four of wr256 N) with a well-formed v leave
operand a, b, the divisor or the dividend equal to v, all other operands, the results, the internal state and STATUS
unchanged, no host fault added, and the rest of the program next. (R83, R81, R77) -/
def Obligations.Wr128AndWr256LoadTheirOperands : Prop :=
  (∀ (s : State) (d : Dest128) (v : Nat) (rest : List Agent) (ops : List HostOp), (HostStmt.wr128 d v).wf = true →
      s.schedule = .host :: .host :: rest → s.program = hostOps s.config [.wr128 d v] ++ ops →
      ∃ t : State, runFor 2 s = .next t ∧ t.schedule = rest ∧ t.program = ops ∧ t.hostFault = s.hostFault ∧
        operandA t = (if d = .a then v else operandA s) ∧ operandB t = (if d = .b then v else operandB s) ∧
        divisorD t = (if d = .dv then v else divisorD s) ∧ t.n = s.n ∧ SameResults s t ∧ SameInternal s t ∧
        statusWord t = statusWord s) ∧
    (∀ (s : State) (v : Nat) (rest : List Agent) (ops : List HostOp), (HostStmt.wr256N v).wf = true →
      s.schedule = .host :: .host :: .host :: .host :: rest → s.program = hostOps s.config [.wr256N v] ++ ops →
      ∃ t : State, runFor 4 s = .next t ∧ t.schedule = rest ∧ t.program = ops ∧ t.hostFault = s.hostFault ∧
        dividendN t = v ∧ t.a = s.a ∧ t.b = s.b ∧ t.dv = s.dv ∧ SameResults s t ∧ SameInternal s t ∧
        statusWord t = statusWord s)

/-- O59. With host turns scheduled, the reads of rd256 P or Q (four) and rd128 RM (two) change nothing of the core, and
the statement's result from the port's answers is the 256-bit or 128-bit value of the registers. (R83, R81, R187) -/
def Obligations.Rd256AndRd128GiveTheResult : Prop :=
  (∀ (s : State) (x : Src256) (rest : List Agent) (ops : List HostOp),
      s.schedule = .host :: .host :: .host :: .host :: rest → s.program = hostOps s.config [.rd256 x] ++ ops →
      ∃ rs : List Response, runFor 4 s = .next { s with schedule := rest, program := ops, responses := rs ++ s.responses } ∧
        programResults [.rd256 x] rs.reverse = [.value (join4 (match x with | .p => s.p | .q => s.q))]) ∧
    (∀ (s : State) (rest : List Agent) (ops : List HostOp),
      s.schedule = .host :: .host :: rest → s.program = hostOps s.config [.rd128RM] ++ ops →
      ∃ rs : List Response, runFor 2 s = .next { s with schedule := rest, program := ops, responses := rs ++ s.responses } ∧
        programResults [.rd128RM] rs.reverse = [.value (join2 s.rm)])

/-- O60. At the host's turn with a poll first in its program, the step answers the STATUS value, changes nothing of the
core, keeps the poll if BUSY is 1 and removes it if BUSY is 0; if the poll is the program's last statement, this step
performs it, so that the state after it is the run's end state, exactly when BUSY is 0 (R192). One read for each host
turn is the model's reading (log 17). (R84, R192, log 6, log 17) -/
def Obligations.PollRepeatsWhileBusy : Prop :=
  ∀ (s : State) (rest : List Agent) (ops : List HostOp), s.schedule = .host :: rest → s.program = .poll :: ops →
    step s = .next (answered s rest (if s.phase = .idle then ops else .poll :: ops) (.data (statusWord s))) ∧
    (ops = [] → ((∃ t : State, PerformsLastStatement s t) ↔ s.phase = .idle) ∧
      (s.phase = .idle → EndState s (answered s rest [] (.data (statusWord s)))))
end

