-- ==== Sys2Proof/Laws/State.lean ====
section
/-! SUPPORT. One lemma per field for every named update of the state, so that no later proof unfolds one. -/

namespace Sys2Proof.Machine

@[simp] theorem setDone_a (d : Bool) (s : State) : (setDone d s).a = s.a := rfl
@[simp] theorem setDone_b (d : Bool) (s : State) : (setDone d s).b = s.b := rfl
@[simp] theorem setDone_dv (d : Bool) (s : State) : (setDone d s).dv = s.dv := rfl
@[simp] theorem setDone_n (d : Bool) (s : State) : (setDone d s).n = s.n := rfl
@[simp] theorem setDone_p (d : Bool) (s : State) : (setDone d s).p = s.p := rfl
@[simp] theorem setDone_q (d : Bool) (s : State) : (setDone d s).q = s.q := rfl
@[simp] theorem setDone_rm (d : Bool) (s : State) : (setDone d s).rm = s.rm := rfl
@[simp] theorem setDone_done (d : Bool) (s : State) : (setDone d s).done = d := rfl
@[simp] theorem setDone_err (d : Bool) (s : State) : (setDone d s).err = s.err := rfl
@[simp] theorem setDone_phase (d : Bool) (s : State) : (setDone d s).phase = s.phase := rfl
@[simp] theorem setDone_opa (d : Bool) (s : State) : (setDone d s).opa = s.opa := rfl
@[simp] theorem setDone_opb (d : Bool) (s : State) : (setDone d s).opb = s.opb := rfl
@[simp] theorem setDone_dvr (d : Bool) (s : State) : (setDone d s).dvr = s.dvr := rfl
@[simp] theorem setDone_dvd (d : Bool) (s : State) : (setDone d s).dvd = s.dvd := rfl
@[simp] theorem setDone_racc (d : Bool) (s : State) : (setDone d s).racc = s.racc := rfl
@[simp] theorem setDone_qacc (d : Bool) (s : State) : (setDone d s).qacc = s.qacc := rfl
@[simp] theorem setDone_cnt (d : Bool) (s : State) : (setDone d s).cnt = s.cnt := rfl
@[simp] theorem setDone_hostFault (d : Bool) (s : State) : (setDone d s).hostFault = s.hostFault := rfl
@[simp] theorem setDone_config (d : Bool) (s : State) : (setDone d s).config = s.config := rfl
@[simp] theorem setDone_program (d : Bool) (s : State) : (setDone d s).program = s.program := rfl
@[simp] theorem setDone_schedule (d : Bool) (s : State) : (setDone d s).schedule = s.schedule := rfl
@[simp] theorem setDone_responses (d : Bool) (s : State) : (setDone d s).responses = s.responses := rfl

@[simp] theorem setErr_a (e : BitVec 4) (s : State) : (setErr e s).a = s.a := rfl
@[simp] theorem setErr_b (e : BitVec 4) (s : State) : (setErr e s).b = s.b := rfl
@[simp] theorem setErr_dv (e : BitVec 4) (s : State) : (setErr e s).dv = s.dv := rfl
@[simp] theorem setErr_n (e : BitVec 4) (s : State) : (setErr e s).n = s.n := rfl
@[simp] theorem setErr_p (e : BitVec 4) (s : State) : (setErr e s).p = s.p := rfl
@[simp] theorem setErr_q (e : BitVec 4) (s : State) : (setErr e s).q = s.q := rfl
@[simp] theorem setErr_rm (e : BitVec 4) (s : State) : (setErr e s).rm = s.rm := rfl
@[simp] theorem setErr_done (e : BitVec 4) (s : State) : (setErr e s).done = s.done := rfl
@[simp] theorem setErr_err (e : BitVec 4) (s : State) : (setErr e s).err = e := rfl
@[simp] theorem setErr_phase (e : BitVec 4) (s : State) : (setErr e s).phase = s.phase := rfl
@[simp] theorem setErr_opa (e : BitVec 4) (s : State) : (setErr e s).opa = s.opa := rfl
@[simp] theorem setErr_opb (e : BitVec 4) (s : State) : (setErr e s).opb = s.opb := rfl
@[simp] theorem setErr_dvr (e : BitVec 4) (s : State) : (setErr e s).dvr = s.dvr := rfl
@[simp] theorem setErr_dvd (e : BitVec 4) (s : State) : (setErr e s).dvd = s.dvd := rfl
@[simp] theorem setErr_racc (e : BitVec 4) (s : State) : (setErr e s).racc = s.racc := rfl
@[simp] theorem setErr_qacc (e : BitVec 4) (s : State) : (setErr e s).qacc = s.qacc := rfl
@[simp] theorem setErr_cnt (e : BitVec 4) (s : State) : (setErr e s).cnt = s.cnt := rfl
@[simp] theorem setErr_hostFault (e : BitVec 4) (s : State) : (setErr e s).hostFault = s.hostFault := rfl
@[simp] theorem setErr_config (e : BitVec 4) (s : State) : (setErr e s).config = s.config := rfl
@[simp] theorem setErr_program (e : BitVec 4) (s : State) : (setErr e s).program = s.program := rfl
@[simp] theorem setErr_schedule (e : BitVec 4) (s : State) : (setErr e s).schedule = s.schedule := rfl
@[simp] theorem setErr_responses (e : BitVec 4) (s : State) : (setErr e s).responses = s.responses := rfl

@[simp] theorem setPhase_a (ph : Phase) (s : State) : (setPhase ph s).a = s.a := rfl
@[simp] theorem setPhase_b (ph : Phase) (s : State) : (setPhase ph s).b = s.b := rfl
@[simp] theorem setPhase_dv (ph : Phase) (s : State) : (setPhase ph s).dv = s.dv := rfl
@[simp] theorem setPhase_n (ph : Phase) (s : State) : (setPhase ph s).n = s.n := rfl
@[simp] theorem setPhase_p (ph : Phase) (s : State) : (setPhase ph s).p = s.p := rfl
@[simp] theorem setPhase_q (ph : Phase) (s : State) : (setPhase ph s).q = s.q := rfl
@[simp] theorem setPhase_rm (ph : Phase) (s : State) : (setPhase ph s).rm = s.rm := rfl
@[simp] theorem setPhase_done (ph : Phase) (s : State) : (setPhase ph s).done = s.done := rfl
@[simp] theorem setPhase_err (ph : Phase) (s : State) : (setPhase ph s).err = s.err := rfl
@[simp] theorem setPhase_phase (ph : Phase) (s : State) : (setPhase ph s).phase = ph := rfl
@[simp] theorem setPhase_opa (ph : Phase) (s : State) : (setPhase ph s).opa = s.opa := rfl
@[simp] theorem setPhase_opb (ph : Phase) (s : State) : (setPhase ph s).opb = s.opb := rfl
@[simp] theorem setPhase_dvr (ph : Phase) (s : State) : (setPhase ph s).dvr = s.dvr := rfl
@[simp] theorem setPhase_dvd (ph : Phase) (s : State) : (setPhase ph s).dvd = s.dvd := rfl
@[simp] theorem setPhase_racc (ph : Phase) (s : State) : (setPhase ph s).racc = s.racc := rfl
@[simp] theorem setPhase_qacc (ph : Phase) (s : State) : (setPhase ph s).qacc = s.qacc := rfl
@[simp] theorem setPhase_cnt (ph : Phase) (s : State) : (setPhase ph s).cnt = s.cnt := rfl
@[simp] theorem setPhase_hostFault (ph : Phase) (s : State) : (setPhase ph s).hostFault = s.hostFault := rfl
@[simp] theorem setPhase_config (ph : Phase) (s : State) : (setPhase ph s).config = s.config := rfl
@[simp] theorem setPhase_program (ph : Phase) (s : State) : (setPhase ph s).program = s.program := rfl
@[simp] theorem setPhase_schedule (ph : Phase) (s : State) : (setPhase ph s).schedule = s.schedule := rfl
@[simp] theorem setPhase_responses (ph : Phase) (s : State) : (setPhase ph s).responses = s.responses := rfl

@[simp] theorem respond_a (r : Response) (s : State) : (respond r s).a = s.a := rfl
@[simp] theorem respond_b (r : Response) (s : State) : (respond r s).b = s.b := rfl
@[simp] theorem respond_dv (r : Response) (s : State) : (respond r s).dv = s.dv := rfl
@[simp] theorem respond_n (r : Response) (s : State) : (respond r s).n = s.n := rfl
@[simp] theorem respond_p (r : Response) (s : State) : (respond r s).p = s.p := rfl
@[simp] theorem respond_q (r : Response) (s : State) : (respond r s).q = s.q := rfl
@[simp] theorem respond_rm (r : Response) (s : State) : (respond r s).rm = s.rm := rfl
@[simp] theorem respond_done (r : Response) (s : State) : (respond r s).done = s.done := rfl
@[simp] theorem respond_err (r : Response) (s : State) : (respond r s).err = s.err := rfl
@[simp] theorem respond_phase (r : Response) (s : State) : (respond r s).phase = s.phase := rfl
@[simp] theorem respond_opa (r : Response) (s : State) : (respond r s).opa = s.opa := rfl
@[simp] theorem respond_opb (r : Response) (s : State) : (respond r s).opb = s.opb := rfl
@[simp] theorem respond_dvr (r : Response) (s : State) : (respond r s).dvr = s.dvr := rfl
@[simp] theorem respond_dvd (r : Response) (s : State) : (respond r s).dvd = s.dvd := rfl
@[simp] theorem respond_racc (r : Response) (s : State) : (respond r s).racc = s.racc := rfl
@[simp] theorem respond_qacc (r : Response) (s : State) : (respond r s).qacc = s.qacc := rfl
@[simp] theorem respond_cnt (r : Response) (s : State) : (respond r s).cnt = s.cnt := rfl
@[simp] theorem respond_hostFault (r : Response) (s : State) : (respond r s).hostFault = s.hostFault := rfl
@[simp] theorem respond_config (r : Response) (s : State) : (respond r s).config = s.config := rfl
@[simp] theorem respond_program (r : Response) (s : State) : (respond r s).program = s.program := rfl
@[simp] theorem respond_schedule (r : Response) (s : State) : (respond r s).schedule = s.schedule := rfl
@[simp] theorem respond_responses (r : Response) (s : State) : (respond r s).responses = r :: s.responses := rfl

@[simp] theorem busError_a (s : State) : (busError s).a = s.a := rfl
@[simp] theorem busError_b (s : State) : (busError s).b = s.b := rfl
@[simp] theorem busError_dv (s : State) : (busError s).dv = s.dv := rfl
@[simp] theorem busError_n (s : State) : (busError s).n = s.n := rfl
@[simp] theorem busError_p (s : State) : (busError s).p = s.p := rfl
@[simp] theorem busError_q (s : State) : (busError s).q = s.q := rfl
@[simp] theorem busError_rm (s : State) : (busError s).rm = s.rm := rfl
@[simp] theorem busError_done (s : State) : (busError s).done = s.done := rfl
@[simp] theorem busError_err (s : State) : (busError s).err = s.err := rfl
@[simp] theorem busError_phase (s : State) : (busError s).phase = s.phase := rfl
@[simp] theorem busError_opa (s : State) : (busError s).opa = s.opa := rfl
@[simp] theorem busError_opb (s : State) : (busError s).opb = s.opb := rfl
@[simp] theorem busError_dvr (s : State) : (busError s).dvr = s.dvr := rfl
@[simp] theorem busError_dvd (s : State) : (busError s).dvd = s.dvd := rfl
@[simp] theorem busError_racc (s : State) : (busError s).racc = s.racc := rfl
@[simp] theorem busError_qacc (s : State) : (busError s).qacc = s.qacc := rfl
@[simp] theorem busError_cnt (s : State) : (busError s).cnt = s.cnt := rfl
@[simp] theorem busError_hostFault (s : State) : (busError s).hostFault = true := rfl
@[simp] theorem busError_config (s : State) : (busError s).config = s.config := rfl
@[simp] theorem busError_program (s : State) : (busError s).program = s.program := rfl
@[simp] theorem busError_schedule (s : State) : (busError s).schedule = s.schedule := rfl
@[simp] theorem busError_responses (s : State) : (busError s).responses = .busError :: s.responses := rfl

@[simp] theorem resetCore_a (s : State) : (resetCore s).a = State.reset.a := rfl
@[simp] theorem resetCore_b (s : State) : (resetCore s).b = State.reset.b := rfl
@[simp] theorem resetCore_dv (s : State) : (resetCore s).dv = State.reset.dv := rfl
@[simp] theorem resetCore_n (s : State) : (resetCore s).n = State.reset.n := rfl
@[simp] theorem resetCore_p (s : State) : (resetCore s).p = State.reset.p := rfl
@[simp] theorem resetCore_q (s : State) : (resetCore s).q = State.reset.q := rfl
@[simp] theorem resetCore_rm (s : State) : (resetCore s).rm = State.reset.rm := rfl
@[simp] theorem resetCore_done (s : State) : (resetCore s).done = State.reset.done := rfl
@[simp] theorem resetCore_err (s : State) : (resetCore s).err = State.reset.err := rfl
@[simp] theorem resetCore_phase (s : State) : (resetCore s).phase = State.reset.phase := rfl
@[simp] theorem resetCore_opa (s : State) : (resetCore s).opa = State.reset.opa := rfl
@[simp] theorem resetCore_opb (s : State) : (resetCore s).opb = State.reset.opb := rfl
@[simp] theorem resetCore_dvr (s : State) : (resetCore s).dvr = State.reset.dvr := rfl
@[simp] theorem resetCore_dvd (s : State) : (resetCore s).dvd = State.reset.dvd := rfl
@[simp] theorem resetCore_racc (s : State) : (resetCore s).racc = State.reset.racc := rfl
@[simp] theorem resetCore_qacc (s : State) : (resetCore s).qacc = State.reset.qacc := rfl
@[simp] theorem resetCore_cnt (s : State) : (resetCore s).cnt = State.reset.cnt := rfl
@[simp] theorem resetCore_hostFault (s : State) : (resetCore s).hostFault = s.hostFault := rfl
@[simp] theorem resetCore_config (s : State) : (resetCore s).config = s.config := rfl
@[simp] theorem resetCore_program (s : State) : (resetCore s).program = s.program := rfl
@[simp] theorem resetCore_schedule (s : State) : (resetCore s).schedule = s.schedule := rfl
@[simp] theorem resetCore_responses (s : State) : (resetCore s).responses = s.responses := rfl

/-- `raise` writes STATUS.ERR and nothing else (60_exceptions.md R163). -/
theorem raise_eq_setErr (e : ErrorCode) (s : State) : raise e s = setErr (if s.err = 0 then e.code else s.err) s := by
  unfold raise
  split <;> rfl

@[simp] theorem raise_a (e : ErrorCode) (s : State) : (raise e s).a = s.a := by simp [raise_eq_setErr]
@[simp] theorem raise_b (e : ErrorCode) (s : State) : (raise e s).b = s.b := by simp [raise_eq_setErr]
@[simp] theorem raise_dv (e : ErrorCode) (s : State) : (raise e s).dv = s.dv := by simp [raise_eq_setErr]
@[simp] theorem raise_n (e : ErrorCode) (s : State) : (raise e s).n = s.n := by simp [raise_eq_setErr]
@[simp] theorem raise_p (e : ErrorCode) (s : State) : (raise e s).p = s.p := by simp [raise_eq_setErr]
@[simp] theorem raise_q (e : ErrorCode) (s : State) : (raise e s).q = s.q := by simp [raise_eq_setErr]
@[simp] theorem raise_rm (e : ErrorCode) (s : State) : (raise e s).rm = s.rm := by simp [raise_eq_setErr]
@[simp] theorem raise_done (e : ErrorCode) (s : State) : (raise e s).done = s.done := by simp [raise_eq_setErr]
@[simp] theorem raise_err (e : ErrorCode) (s : State) : (raise e s).err = if s.err = 0 then e.code else s.err := by simp [raise_eq_setErr]
@[simp] theorem raise_phase (e : ErrorCode) (s : State) : (raise e s).phase = s.phase := by simp [raise_eq_setErr]
@[simp] theorem raise_opa (e : ErrorCode) (s : State) : (raise e s).opa = s.opa := by simp [raise_eq_setErr]
@[simp] theorem raise_opb (e : ErrorCode) (s : State) : (raise e s).opb = s.opb := by simp [raise_eq_setErr]
@[simp] theorem raise_dvr (e : ErrorCode) (s : State) : (raise e s).dvr = s.dvr := by simp [raise_eq_setErr]
@[simp] theorem raise_dvd (e : ErrorCode) (s : State) : (raise e s).dvd = s.dvd := by simp [raise_eq_setErr]
@[simp] theorem raise_racc (e : ErrorCode) (s : State) : (raise e s).racc = s.racc := by simp [raise_eq_setErr]
@[simp] theorem raise_qacc (e : ErrorCode) (s : State) : (raise e s).qacc = s.qacc := by simp [raise_eq_setErr]
@[simp] theorem raise_cnt (e : ErrorCode) (s : State) : (raise e s).cnt = s.cnt := by simp [raise_eq_setErr]
@[simp] theorem raise_hostFault (e : ErrorCode) (s : State) : (raise e s).hostFault = s.hostFault := by simp [raise_eq_setErr]
@[simp] theorem raise_config (e : ErrorCode) (s : State) : (raise e s).config = s.config := by simp [raise_eq_setErr]
@[simp] theorem raise_program (e : ErrorCode) (s : State) : (raise e s).program = s.program := by simp [raise_eq_setErr]
@[simp] theorem raise_schedule (e : ErrorCode) (s : State) : (raise e s).schedule = s.schedule := by simp [raise_eq_setErr]
@[simp] theorem raise_responses (e : ErrorCode) (s : State) : (raise e s).responses = s.responses := by simp [raise_eq_setErr]

end Sys2Proof.Machine
end

