-- ==== Sys2Proof/Laws/Ops.lean ====
section
/-! SUPPORT. Spec lemmas of the shared operations: what each of them can do, said once. -/

namespace Sys2Proof.Machine

theorem busy_iff (s : State) : busy s = true ↔ s.phase ≠ .idle := by simp [busy]

theorem busy_eq_false (s : State) : busy s = false ↔ s.phase = .idle := by simp [busy]

/-- Bit 0 of STATUS is BUSY (10_state.md R29). -/
theorem statusWord_busy (s : State) : (statusWord s).getLsbD 0 = busy s := by
  rw [statusWord, BitVec.getLsbD_append, if_pos (by decide)]
  cases busy s <;> rfl

/-- A compute command written while busy (30_encoding.md R75). -/
theorem dispatchCompute_busy {divides : Bool} {accept : State → State} {s : State} (h : s.phase ≠ .idle) :
    dispatchCompute divides accept s = raise .busyReject (setDone false s) := by
  simp [dispatchCompute, busy, h]

/-- A dividing command with a zero divisor, written while idle (30_encoding.md R75). -/
theorem dispatchCompute_zero {accept : State → State} {s : State} (h : s.phase = .idle) (hd : divisorD s = 0) :
    dispatchCompute true accept s = raise .invalidDivisor (setDone false s) := by
  simp [dispatchCompute, busy, h, hd]

/-- An accepted command (30_encoding.md R75). -/
theorem dispatchCompute_accept {divides : Bool} {accept : State → State} {s : State} (h : s.phase = .idle)
    (hd : divides = true → divisorD s ≠ 0) : dispatchCompute divides accept s = accept (setDone false s) := by
  have h' : ¬ (divides = true ∧ divisorD s = 0) := fun c => hd c.1 c.2
  simp only [dispatchCompute, busy, h, ne_eq, not_true_eq_false, decide_false, Bool.false_eq_true, if_false, if_neg h']

/-- The three things the checks of 30_encoding.md R75 can lead to. -/
theorem dispatchCompute_cases (divides : Bool) (accept : State → State) (s : State) :
    (s.phase ≠ .idle ∧ dispatchCompute divides accept s = raise .busyReject (setDone false s)) ∨
    (s.phase = .idle ∧ divides = true ∧ divisorD s = 0 ∧
      dispatchCompute divides accept s = raise .invalidDivisor (setDone false s)) ∨
    (s.phase = .idle ∧ (divides = true → divisorD s ≠ 0) ∧
      dispatchCompute divides accept s = accept (setDone false s)) := by
  by_cases h : s.phase = .idle
  · by_cases hd : divides = true ∧ divisorD s = 0
    · obtain ⟨rfl, hz⟩ := hd
      exact .inr (.inl ⟨h, rfl, hz, dispatchCompute_zero h hz⟩)
    · exact .inr (.inr ⟨h, fun hh hz => hd ⟨hh, hz⟩, dispatchCompute_accept h fun hh hz => hd ⟨hh, hz⟩⟩)
  · exact .inl ⟨h, dispatchCompute_busy h⟩

/-- A host write reaches operand registers only (20_memory.md R54). -/
theorem writeReg_some {s t : State} {v : Word} {r : Reg} (h : writeReg s v r = some t) :
    t = { s with a := t.a, b := t.b, dv := t.dv, n := t.n } := by
  cases r <;> simp [writeReg] at h <;> subst h <;> rfl

/-- A register can be written by the host exactly when it is RW (20_memory.md R52). -/
theorem writeReg_isSome (s : State) (v : Word) (r : Reg) : (writeReg s v r).isSome = true ↔ r.right = .rw := by
  cases r <;> simp [writeReg, Reg.right]

/-- A register can be read by the host exactly when it is not WO (20_memory.md R52). -/
theorem readReg_isSome (s : State) (r : Reg) : (readReg s r).isSome = true ↔ r.right ≠ .wo := by
  cases r <;> simp [readReg, Reg.right]

/-- A command step ends in a next state (30_encoding.md R75, 60_exceptions.md R167). -/
theorem cmdWrite_next (w : Word) (s : State) : ∃ t, cmdWrite w s = .next t := by
  unfold cmdWrite
  split
  · rename_i i _
    cases i <;> exact ⟨_, rfl⟩
  · exact ⟨_, rfl⟩

/-- What an illegal word leaves (60_exceptions.md R164). -/
theorem rejectIllegal_eq (s : State) :
    rejectIllegal s = setErr (if s.err = 0 then 4 else s.err) (setDone false s) :=
  raise_eq_setErr .illegalCommand (setDone false s)

/-- The access reaches the core exactly at the addresses of the window (20_memory.md R50). -/
theorem windowOffset_eq_some {c : Config} {addr off : Nat} :
    windowOffset c addr = some off ↔ addr = c.windowBase + off ∧ off < 0x100 := by
  unfold windowOffset
  by_cases h : c.windowBase ≤ addr ∧ addr < c.windowBase + 0x100
  · rw [if_pos h, Option.some.injEq]
    omega
  · rw [if_neg h]
    simp only [reduceCtorEq, false_iff]
    omega

/-- The access does not reach the core exactly outside the window (20_memory.md R50). -/
theorem windowOffset_eq_none {c : Config} {addr : Nat} :
    windowOffset c addr = none ↔ addr < c.windowBase ∨ c.windowBase + 0x100 ≤ addr := by
  unfold windowOffset
  by_cases h : c.windowBase ≤ addr ∧ addr < c.windowBase + 0x100
  · rw [if_pos h]
    simp only [reduceCtorEq, false_iff]
    omega
  · rw [if_neg h]
    simp only [true_iff]
    omega

/-- `regAt` finds a register at its own offset only (10_state.md R20). -/
theorem regAt_eq_some {off : Nat} {r : Reg} : regAt off = some r ↔ r.offset = off := by
  constructor
  · intro h
    exact eq_of_beq (List.find?_some (p := fun r : Reg => r.offset == off) h)
  · rintro rfl
    cases r <;> rfl

/-- What the first three conditions of 20_memory.md R52 ask of an access. -/
theorem addressedReg_eq_some {off size : Nat} {r : Reg} :
    addressedReg off size = some r ↔ size = 8 ∧ r.offset = off := by
  unfold addressedReg
  by_cases h : size = 8 ∧ off % 8 = 0
  · rw [if_pos h, regAt_eq_some]
    exact ⟨fun hr => ⟨h.1, hr⟩, fun hr => hr.2⟩
  · rw [if_neg h]
    simp only [reduceCtorEq, false_iff]
    rintro ⟨h8, rfl⟩
    exact h ⟨h8, by cases r <;> rfl⟩

/-- A read gets no value exactly where 20_memory.md R52 does not admit it. -/
theorem portRead_eq_none {off size : Nat} {s : State} : portRead off size s = none ↔ ¬ AdmittedRead off size := by
  unfold portRead
  cases ha : addressedReg off size with
  | some r =>
    obtain ⟨rfl, rfl⟩ := addressedReg_eq_some.mp ha
    cases r <;> simp [readReg, Reg.offset]
  | none =>
    simp only [true_iff]
    rintro ⟨h8, hm, ho⟩
    obtain ⟨r, _, hr⟩ : ∃ r ∈ Reg.all, r.offset = 8 * (off / 8) :=
      (by decide : ∀ j ≤ 21, ∃ r ∈ Reg.all, r.offset = 8 * j) (off / 8) (by omega)
    exact nomatch ha.symm.trans (addressedReg_eq_some.mpr ⟨h8, show r.offset = off by omega⟩)

/-- A write has no outcome exactly where 20_memory.md R52 does not admit it. -/
theorem portWrite_eq_none {off size : Nat} {v : Word} {s : State} :
    portWrite off size v s = none ↔ ¬ AdmittedWrite off size := by
  unfold portWrite
  cases ha : addressedReg off size with
  | some r =>
    obtain ⟨rfl, rfl⟩ := addressedReg_eq_some.mp ha
    cases r <;> simp [writeReg, Reg.offset]
  | none =>
    simp only [true_iff]
    rintro ⟨h8, hm, ho⟩
    obtain ⟨r, _, hr⟩ : ∃ r ∈ Reg.all, r.offset = 8 * (off / 8) :=
      (by decide : ∀ j ≤ 21, ∃ r ∈ Reg.all, r.offset = 8 * j) (off / 8) (by omega)
    exact nomatch ha.symm.trans (addressedReg_eq_some.mpr ⟨h8, show r.offset = off by omega⟩)

/-- Everything one host access can do (20_memory.md R50 to R55). -/
theorem performAccess_cases (acc : Access) (s : State) :
    performAccess acc s = .next (respond .notReached s) ∨
    (∃ v, performAccess acc s = .next (respond (.data v) s)) ∨
    performAccess acc s = .next (busError s) ∨
    (∃ r v t, acc = .write (s.config.windowBase + r.offset) 8 v ∧ writeReg (respond .ack s) v r = some t ∧
      performAccess acc s = .next t) ∨
    (∃ w t, acc = .write (s.config.windowBase + 0xA0) 8 w ∧ cmdWrite w (respond .ack s) = .next t ∧
      performAccess acc s = .next t) := by
  cases acc with
  | read addr size =>
    simp only [performAccess]
    cases windowOffset s.config addr with
    | none => exact .inl rfl
    | some off =>
      cases hr : portRead off size s with
      | none => exact .inr (.inr (.inl (by simp [hr])))
      | some v => exact .inr (.inl ⟨v, by simp [hr]⟩)
  | write addr size v =>
    simp only [performAccess]
    cases ho : windowOffset s.config addr with
    | none => exact .inl rfl
    | some off =>
      cases ha : addressedReg off size with
      | none => exact .inr (.inr (.inl (by simp [portWrite, ha])))
      | some r =>
        have hs := addressedReg_eq_some.mp ha
        have hacc : Access.write addr size v = .write (s.config.windowBase + r.offset) 8 v := by
          rw [(windowOffset_eq_some.mp ho).1, hs.1, hs.2]
        by_cases hc : r = .cmd
        · subst hc
          obtain ⟨t, ht⟩ := cmdWrite_next v (respond .ack s)
          exact .inr (.inr (.inr (.inr ⟨v, t, hacc, ht, by simp [portWrite, ha, ht]⟩)))
        · cases hw : writeReg (respond .ack s) v r with
          | none => exact .inr (.inr (.inl (by cases r <;> simp_all [portWrite, writeReg])))
          | some t => exact .inr (.inr (.inr (.inl ⟨r, v, t, hacc, hw, by cases r <;> simp_all [portWrite]⟩)))

/-- Everything one host step can do (20_memory.md R52): nothing, or one access after the program has moved on (or, at a `poll`
of a busy core, stayed). -/
theorem hostStep_cases (s : State) :
    (s.program = [] ∧ hostStep s = .next s) ∨
    (∃ acc ops, s.program = .access acc :: ops ∧ hostStep s = performAccess acc { s with program := ops }) ∨
    (∃ ops prog, s.program = .poll :: ops ∧ hostStep s =
      performAccess (.read (s.config.windowBase + 0xA8) 8) { s with program := prog }) := by
  unfold hostStep
  split
  · exact .inl ⟨‹_›, rfl⟩
  · exact .inr (.inl ⟨_, _, ‹_›, rfl⟩)
  · exact .inr (.inr ⟨_, _, ‹_›, rfl⟩)

/-- The accumulator holds every number of 129 bits (42_divider.md R139). -/
theorem raccOf_toNat {r' : Nat} (h : r' < 2 ^ 129) : (raccOf r').toNat = r' := by
  rw [raccOf, if_pos h, BitVec.toNat_ofNat, Nat.mod_eq_of_lt h]

/-- Everything one division iteration can do (42_divider.md R136, R137). -/
theorem divIteration_cases (s : State) :
    (256 ≤ s.cnt.toNat ∧ divIteration s = .fault .divisionCounterOutOfRange) ∨
    (s.cnt.toNat = 255 ∧ divIteration s = .next (divFinish (nextRem s) (nextQuo s) (iterated s))) ∨
    (s.cnt.toNat < 255 ∧ divIteration s = .next (iterated s)) := by
  by_cases hc : 256 ≤ s.cnt.toNat
  · exact .inl ⟨hc, if_pos hc⟩
  · by_cases hl : s.cnt.toNat + 1 = 256
    · exact .inr (.inl ⟨by omega, (if_neg hc).trans (if_pos hl)⟩)
    · exact .inr (.inr ⟨by omega, (if_neg hc).trans (if_neg hl)⟩)

/-- Everything one step can do (00_scope.md R15). -/
theorem step_cases (s : State) :
    (s.schedule = [] ∧ step s = coreStep s) ∨
    (∃ rest, s.schedule = .host :: rest ∧ step s = hostStep { s with schedule := rest }) ∨
    (∃ rest, s.schedule = .core :: rest ∧ step s = coreStep { s with schedule := rest }) ∨
    (∃ rest, s.schedule = .reset :: rest ∧ step s = .next (resetCore { s with schedule := rest })) := by
  unfold step
  split
  · exact .inl ⟨‹_›, rfl⟩
  · exact .inr (.inl ⟨_, ‹_›, rfl⟩)
  · exact .inr (.inr (.inl ⟨_, ‹_›, rfl⟩))
  · exact .inr (.inr (.inr ⟨_, ‹_›, rfl⟩))

/-- A run of `j + k` steps is `k` steps after `j` steps. -/
theorem runFor_add {j k : Nat} {s t : State} (h : runFor j s = .next t) : runFor (j + k) s = runFor k t := by
  induction j generalizing s with
  | zero =>
    simp only [runFor] at h
    cases h
    simp
  | succ j ih =>
    rw [Nat.add_right_comm]
    simp only [runFor] at h ⊢
    cases hs : step s with
    | next u => rw [hs] at h; simpa using ih h
    | fault r => rw [hs] at h; cases h
    | refused r => rw [hs] at h; cases h

/-- What holds at `s` and is kept by every step holds after any run. -/
theorem runFor_keeps {P : State → Prop} (hstep : ∀ s t, P s → step s = .next t → P t) :
    ∀ (k : Nat) (s t : State), P s → runFor k s = .next t → P t := by
  intro k
  induction k with
  | zero => intro s t hp h; simp only [runFor] at h; cases h; exact hp
  | succ k ih =>
    intro s t hp h
    simp only [runFor] at h
    cases hs : step s with
    | next u => rw [hs] at h; exact ih u t (hstep s u hp hs) h
    | fault r => rw [hs] at h; cases h
    | refused r => rw [hs] at h; cases h

end Sys2Proof.Machine
end

