-- ==== Sys2Proof/Laws/PerInstr.lean ====
section
/-! SUPPORT. Facts about every command as syntax, one lemma per constructor. -/

namespace Sys2Proof.Laws.Encoding

/-- A command's word is a valid command word with RSVD = 0, so the word is its OPCODE (30_encoding.md R72, R73). -/
def Statement (i : Instr) : Prop :=
  validCmd (encode i) = true ∧ rsvdField (encode i) = 0 ∧ (encode i).toNat = (opcodeField (encode i)).toNat

theorem nop : Statement .nop := by unfold Statement; decide

theorem mul : Statement .mul := by unfold Statement; decide

theorem div : Statement .div := by unfold Statement; decide

theorem muldiv : Statement .muldiv := by unfold Statement; decide

theorem clear : Statement .clear := by unfold Statement; decide

end Sys2Proof.Laws.Encoding
end

