-- ==== Sys2Proof/Laws/Run.lean ====
section
/-! SUPPORT. The end of a host program's run (70_reset_and_hazards.md R192): what one step does to the program, and that a run has
one end state. -/

namespace Sys2Proof.Machine

theorem abandonCommand_program (s : State) : (abandonCommand s).program = s.program := raise_program _ s

theorem dispatchCompute_program {divides : Bool} {accept : State → State} (h : ∀ s, (accept s).program = s.program)
    (s : State) : (dispatchCompute divides accept s).program = s.program := by
  rcases dispatchCompute_cases divides accept s with ⟨_, e⟩ | ⟨_, _, _, e⟩ | ⟨_, _, e⟩ <;> rw [e]
  · exact raise_program _ _
  · exact raise_program _ _
  · exact h _

/-- A command does not change the host's program. -/
theorem cmdWrite_program {w : Word} {s t : State} (h : cmdWrite w s = .next t) : t.program = s.program := by
  unfold cmdWrite at h
  split at h
  · rename_i i _
    cases i <;> cases h
    · rfl
    · exact dispatchCompute_program (accept := mulAccept) (fun _ => rfl) s
    · exact dispatchCompute_program (accept := divAccept) (fun _ => rfl) s
    · exact dispatchCompute_program (accept := muldivAccept) (fun _ => rfl) s
    · rfl
  · cases h
    exact raise_program _ _

/-- An access does not change the statements still to come. -/
theorem performAccess_program {acc : Access} {s t : State} (h : performAccess acc s = .next t) : t.program = s.program := by
  rcases performAccess_cases acc s with e | ⟨v, e⟩ | e | ⟨r, v, u, _, hw, e⟩ | ⟨w, u, _, hc, e⟩ <;> rw [e] at h <;> cases h
  · rfl
  · rfl
  · rfl
  · rw [writeReg_some hw]; rfl
  · exact (cmdWrite_program hc).trans rfl

/-- A core step does not change the host's program. -/
theorem coreStep_program {s t : State} (h : coreStep s = .next t) : t.program = s.program := by
  unfold coreStep at h
  split at h
  · cases h; rfl
  · cases h; unfold mulStepOnly; split
    · rfl
    · exact abandonCommand_program s
  · cases h; unfold mulStepThenDiv; split
    · rfl
    · exact abandonCommand_program s
  · rcases divIteration_cases s with ⟨_, e⟩ | ⟨_, e⟩ | ⟨_, e⟩ <;> rw [e] at h <;> cases h
    · unfold divFinish; split
      · exact abandonCommand_program _
      · rfl
    · rfl

/-- What a host step does to the program: nothing is left to do, or its first access is done, or its first `poll` is, which
stays exactly while the core is busy (30_encoding.md R84). -/
theorem hostStep_program {s t : State} (h : hostStep s = .next t) :
    (s.program = [] ∧ t.program = []) ∨ (∃ acc, s.program = .access acc :: t.program) ∨
    (s.phase = .idle ∧ s.program = .poll :: t.program) ∨
    (s.phase ≠ .idle ∧ t.program = s.program ∧ ∃ ops, s.program = .poll :: ops) := by
  unfold hostStep at h
  split at h
  · cases h; exact .inl ⟨‹_›, ‹_›⟩
  · rename_i acc ops hp
    exact .inr (.inl ⟨acc, by rw [performAccess_program h]; exact hp⟩)
  · rename_i ops hp
    have hb := statusWord_busy s
    have ht := performAccess_program h
    by_cases hi : s.phase = .idle
    · rw [hb, (busy_eq_false s).mpr hi] at ht
      exact .inr (.inr (.inl ⟨hi, by rw [ht]; exact hp⟩))
    · rw [hb, (busy_iff s).mpr hi] at ht
      exact .inr (.inr (.inr ⟨hi, by rw [ht, hp]; rfl, ops, hp⟩))

/-- What any step does to the program (20_memory.md R52, 30_encoding.md R84). -/
theorem step_program {s t : State} (h : step s = .next t) :
    t.program = s.program ∨
    (HostTurn s ∧ ((∃ acc, s.program = .access acc :: t.program) ∨ (s.phase = .idle ∧ s.program = .poll :: t.program))) := by
  rcases step_cases s with ⟨_, e⟩ | ⟨rest, hs, e⟩ | ⟨rest, _, e⟩ | ⟨rest, _, e⟩ <;> rw [e] at h
  · exact .inl (coreStep_program h)
  · have ht : HostTurn s := by rw [HostTurn, hs]; rfl
    rcases hostStep_program h with ⟨h1, h2⟩ | hacc | hpoll | ⟨_, hk, _⟩
    · exact .inl (h2.trans h1.symm)
    · exact .inr ⟨ht, .inl hacc⟩
    · exact .inr ⟨ht, .inr hpoll⟩
    · exact .inl hk
  · exact .inl ((coreStep_program h).trans rfl)
  · cases h; exact .inl rfl

/-- The last statement is performed by a host step: an access, or a `poll` that reads BUSY = 0 (70_reset_and_hazards.md R192). -/
theorem performsLastStatement_host {s t : State} (h : PerformsLastStatement s t) :
    HostTurn s ∧ ((∃ acc, s.program = [.access acc]) ∨ (s.phase = .idle ∧ s.program = [.poll])) := by
  obtain ⟨hx, hs, ht⟩ := h
  rcases step_program hx with he | hc
  · exact absurd (he.symm.trans ht) hs
  · rwa [ht] at hc

/-- A run that is over stays over. -/
theorem step_runEnded {s t : State} (hs : RunEnded s) (h : step s = .next t) : RunEnded t := by
  rcases step_program h with he | ⟨_, ⟨_, he⟩ | ⟨_, he⟩⟩
  · exact he.trans hs
  · rw [hs] at he; cases he
  · rw [hs] at he; cases he

/-- The end state is reached by the step that performs the last statement, after steps that do not. -/
theorem endStateWithin_some {k : Nat} {s e : State} (h : endStateWithin k s = some e) :
    ∃ (j : Nat) (u : State), j < k ∧ runFor j s = .next u ∧ PerformsLastStatement u e := by
  induction k generalizing s with
  | zero => cases h
  | succ k ih =>
    unfold endStateWithin at h
    split at h
    · rename_i t ht
      split at h
      · rename_i hl
        cases h
        exact ⟨0, s, by omega, rfl, ht, hl⟩
      · obtain ⟨j, u, hj, hr, hp⟩ := ih h
        exact ⟨j + 1, u, by omega, by rw [runFor, ht]; exact hr, hp⟩
    · cases h
    · cases h

/-- No later state is an end state: a run that is over has no last statement left. -/
theorem endStateWithin_of_runEnded (k : Nat) {s : State} (hs : RunEnded s) : endStateWithin k s = none := by
  cases h : endStateWithin k s with
  | none => rfl
  | some e =>
    obtain ⟨j, u, _, hr, hp⟩ := endStateWithin_some h
    exact absurd (runFor_keeps (P := RunEnded) (fun _ _ => step_runEnded) j s u hs hr) hp.2.1

/-- More steps do not change the end state. -/
theorem endStateWithin_mono {j k : Nat} {s e : State} (hk : j ≤ k) (h : endStateWithin j s = some e) :
    endStateWithin k s = some e := by
  induction j generalizing s k with
  | zero => cases h
  | succ j ih =>
    obtain ⟨k, rfl⟩ : ∃ m, k = m + 1 := ⟨k - 1, by omega⟩
    unfold endStateWithin at h ⊢
    split at h
    · split at h
      · rename_i hl
        exact (if_pos hl).trans h
      · rename_i hl
        exact (if_neg hl).trans (ih (by omega) h)
    · cases h
    · cases h

/-- A run has one end state (70_reset_and_hazards.md R192). -/
theorem endState_unique {s e e' : State} (h : EndState s e) (h' : EndState s e') : e = e' := by
  obtain ⟨j, hj⟩ := h
  obtain ⟨k, hk⟩ := h'
  exact Option.some.inj
    ((endStateWithin_mono (Nat.le_max_left j k) hj).symm.trans (endStateWithin_mono (Nat.le_max_right j k) hk))

end Sys2Proof.Machine
end

