-- ==== Sys2Proof/Machine/Assembler.lean ====
section
/-! DEFINITION. The text form of a host program (30_encoding.md R80 to R84), on lists of characters: one statement a line,
`#` begins a comment, numbers are decimal or `0x` hex literals (00_scope.md R8). What R80 leaves open of the text (blank lines,
spacing, capitals) is log 18. -/

namespace Sys2Proof.Machine

/-- The name of a register in a program's text (30_encoding.md R80). -/
def Reg.name : Reg → List Char
  | .a0 => ['A', '0']
  | .a1 => ['A', '1']
  | .b0 => ['B', '0']
  | .b1 => ['B', '1']
  | .dv0 => ['D', 'V', '0']
  | .dv1 => ['D', 'V', '1']
  | .n0 => ['N', '0']
  | .n1 => ['N', '1']
  | .n2 => ['N', '2']
  | .n3 => ['N', '3']
  | .p0 => ['P', '0']
  | .p1 => ['P', '1']
  | .p2 => ['P', '2']
  | .p3 => ['P', '3']
  | .q0 => ['Q', '0']
  | .q1 => ['Q', '1']
  | .q2 => ['Q', '2']
  | .q3 => ['Q', '3']
  | .rm0 => ['R', 'M', '0']
  | .rm1 => ['R', 'M', '1']
  | .cmd => ['C', 'M', 'D']
  | .status => ['S', 'T', 'A', 'T', 'U', 'S']

/-- The name of a command in `cmd M` (30_encoding.md R82). -/
def cmdName : Instr → List Char
  | .nop => ['N', 'O', 'P']
  | .mul => ['M', 'U', 'L']
  | .div => ['D', 'I', 'V']
  | .muldiv => ['M', 'U', 'L', 'D', 'I', 'V']
  | .clear => ['C', 'L', 'E', 'A', 'R']

/-- The value of a digit in a base up to 16. -/
def digitValue (base : Nat) (c : Char) : Option Nat :=
  let n := c.toNat
  let v :=
    if 48 ≤ n ∧ n ≤ 57 then n - 48
    else if 97 ≤ n ∧ n ≤ 102 then n - 87
    else if 65 ≤ n ∧ n ≤ 70 then n - 55
    else base
  if v < base then some v else none

/-- Digits read from the left onto `acc`. -/
def readDigits (base : Nat) : Nat → List Char → Option Nat
  | acc, [] => some acc
  | acc, c :: cs =>
    match digitValue base c with
    | some v => readDigits base (acc * base + v) cs
    | none => none

/-- Digits, at least one of them: the spec gives a literal without a digit no value, and the model refuses it (DESIGN CHOICE,
log 18). -/
def readNumber (base : Nat) (ds : List Char) : Option Nat := if ds = [] then none else readDigits base 0 ds

/-- A numeric literal: decimal, or `0x` hex, in which underscores only group digits (00_scope.md R8, 30_encoding.md R80). Where
R8 leaves their places open, an underscore may stand anywhere after `0x`; `0x` and `0x_` hold no digit and are no literal, and a
decimal literal holds no underscore (DESIGN CHOICE, log 18). -/
def readLiteral : List Char → Option Nat
  | '0' :: 'x' :: cs => readNumber 16 (cs.filter (· != '_'))
  | cs => readNumber 10 cs

/-- The register of a name (30_encoding.md R80). -/
def readRegName (cs : List Char) : Option Reg := Reg.all.find? (fun r => r.name == cs)

/-- The command of a name (30_encoding.md R82). -/
def readCmdName (cs : List Char) : Option Instr :=
  [Instr.nop, .mul, .div, .muldiv, .clear].find? (fun i => cmdName i == cs)

/-- The destination of `wr128` (30_encoding.md R83). -/
def readDest128 (cs : List Char) : Option Dest128 :=
  if cs = ['A'] then some .a else if cs = ['B'] then some .b else if cs = ['D', 'V'] then some .dv else none

/-- The source of `rd256` (30_encoding.md R83). -/
def readSrc256 (cs : List Char) : Option Src256 :=
  if cs = ['P'] then some .p else if cs = ['Q'] then some .q else none

/-- A statement with a destination and a number (30_encoding.md R81, R83). -/
def readWrite (k dest num : List Char) : Option HostStmt :=
  if k = ['w', 'r'] then (readRegName dest).bind fun r => (readLiteral num).map (HostStmt.wr r)
  else if k = ['w', 'r', '1', '2', '8'] then (readDest128 dest).bind fun d => (readLiteral num).map (HostStmt.wr128 d)
  else if k = ['w', 'r', '2', '5', '6'] ∧ dest = ['N'] then (readLiteral num).map HostStmt.wr256N
  else none

/-- A statement with one name (30_encoding.md R81 to R83). -/
def readNamed (k x : List Char) : Option HostStmt :=
  if k = ['r', 'd'] then (readRegName x).map HostStmt.rd
  else if k = ['c', 'm', 'd'] then (readCmdName x).map HostStmt.cmd
  else if k = ['r', 'd', '1', '2', '8'] ∧ x = ['R', 'M'] then some .rd128RM
  else if k = ['r', 'd', '2', '5', '6'] then (readSrc256 x).map HostStmt.rd256
  else none

/-- The statement of a line's words, if they are one and its number fits. -/
def readStmt (ws : List (List Char)) : Option HostStmt :=
  let st :=
    match ws with
    | [k, dest, num] => readWrite k dest num
    | [k, x] => readNamed k x
    | [k] => if k = ['p', 'o', 'l', 'l'] then some .poll else none
    | _ => none
  st.bind fun x => if x.wf then some x else none

/-- A word put before others, unless it is empty. -/
def pushWord (w : List Char) (ws : List (List Char)) : List (List Char) := if w = [] then ws else w :: ws

/-- The parts of a text between characters that `sep` holds of: the first part, and the others. -/
def partsAt (sep : Char → Bool) : List Char → List Char × List (List Char)
  | [] => ([], [])
  | c :: cs =>
    let r := partsAt sep cs
    if sep c then ([], r.1 :: r.2) else (c :: r.1, r.2)

/-- The words of a line, without its comment (30_encoding.md R80). -/
def wordsOf (line : List Char) : List (List Char) :=
  let r := partsAt (fun c => c == ' ' || c == '\t' || c == ',') (line.takeWhile (· != '#'))
  (r.1 :: r.2).foldr pushWord []

/-- The statements of lines already cut into words; a line without a word has none. -/
def readLines : List (List (List Char)) → Option (List HostStmt)
  | [] => some []
  | [] :: ls => readLines ls
  | ws :: ls => (readStmt ws).bind fun st => (readLines ls).map (st :: ·)

/-- The program of a text (30_encoding.md R80), none where a line is no statement. -/
def assemble (text : List Char) : Option (List HostStmt) :=
  let r := partsAt (· == '\n') text
  readLines ((r.1 :: r.2).map wordsOf)

end Sys2Proof.Machine
end

