-- ==== Sys2Proof/Tests/Slice0.lean ====
section
/-! SUPPORT. The model's own tests, and a witness of the hypotheses of every statement that has some. Expected results are the
spec's: its examples, its tables and 95_test_vectors.md; each test names its source. -/

namespace Sys2Proof.Tests

open Sys2Proof Sys2Proof.Machine

/-! ## Well-formedness -/

/-- 30_encoding.md R80: a `wr` literal below 2^64. -/
theorem test_wf_wr : (HostStmt.wr .a0 (2 ^ 64 - 1)).wf = true ∧ (HostStmt.wr .a0 (2 ^ 64)).wf = false := by decide

/-- 30_encoding.md R83: a `wr128` literal below 2^128. -/
theorem test_wf_wr128 : (HostStmt.wr128 .dv (2 ^ 128 - 1)).wf = true ∧ (HostStmt.wr128 .dv (2 ^ 128)).wf = false := by decide

/-- 30_encoding.md R83: a `wr256` literal below 2^256. -/
theorem test_wf_wr256 : (HostStmt.wr256N (2 ^ 256 - 1)).wf = true ∧ (HostStmt.wr256N (2 ^ 256)).wf = false := by decide

/-- A program with one ill-formed statement is refused. -/
theorem test_wf_program :
    programWf [.rd .status, .poll, .cmd .mul] = true ∧ programWf [.poll, .wr .cmd (2 ^ 64)] = false := by decide

/-! ## Decoding: the words of 30_encoding.md R72, bit by bit -/

/-- Control: RSVD 0 and OPCODE 00000000 is NOP, 00000100 is CLEAR. -/
theorem test_decode_control :
    decode (0#56 ++ 0b00000000#8) = .command .nop ∧ decode (0#56 ++ 0b00000100#8) = .command .clear := by decide

/-- Multiplier: RSVD 0 and OPCODE 00000001 is MUL. -/
theorem test_decode_multiplier : decode (0#56 ++ 0b00000001#8) = .command .mul := by decide

/-- Divider: RSVD 0 and OPCODE 00000010 is DIV, 00000011 is MULDIV. -/
theorem test_decode_divider :
    decode (0#56 ++ 0b00000010#8) = .command .div ∧ decode (0#56 ++ 0b00000011#8) = .command .muldiv := by decide

/-- V-C7 to V-C10 and 30_encoding.md R76: what is illegal. -/
theorem test_decode_illegal :
    decode 0x5#64 = .illegal ∧ decode 0xFF#64 = .illegal ∧ decode 0x100#64 = .illegal ∧
      decode 0x8000000000000001#64 = .illegal := by decide

/-- 20_memory.md R57: MULDIV on the byte lanes, and what is no command word (30_encoding.md R78). -/
theorem test_decode_bytes :
    decodeBytes [3, 0, 0, 0, 0, 0, 0, 0] = .command .muldiv ∧ decodeBytes [0, 0, 0, 0, 0, 0, 0, 3] = .illegal ∧
      decodeBytes [3] = .notOneWord := by decide

/-- spec/opcode_table.json: the five rows' words. -/
theorem test_decode_table :
    decodeTableWord 64 0 = some .nop ∧ decodeTableWord 64 1 = some .mul ∧ decodeTableWord 64 2 = some .div ∧
      decodeTableWord 64 3 = some .muldiv ∧ decodeTableWord 64 4 = some .clear ∧ decodeTableWord 64 5 = none := by decide

/-! ## Host programs as text -/

/-- Program P5 of 95_test_vectors.md, its text and its encoding. -/
theorem test_assemble_p5 :
    (assemble "wr CMD, 0x105    # illegal\nrd STATUS\n\ncmd NOP\nwr CMD, 0x1_00\ncmd DIV\ncmd CLEAR".toList).map listing =
      some [.w 0xA0 0x105, .r 0xA8, .w 0xA0 0, .w 0xA0 0x100, .w 0xA0 2, .w 0xA0 4] := by decide

/-- The first lines of program P4 of 95_test_vectors.md (limbs in increasing index), and texts that are no program. -/
theorem test_assemble_pseudo :
    (assemble "wr128 DV, 3\npoll\nrd128 RM".toList).map listing =
      some [.w 0x20 3, .w 0x28 0, .poll, .r 0x90, .r 0x98] ∧
    assemble "wr256 A, 3".toList = none ∧ assemble "rd P4".toList = none ∧
    assemble "wr A0, 18446744073709551616".toList = none := by decide

/-- 00_scope.md R8: an underscore only groups digits; a literal needs a digit (log 18). -/
theorem test_literal :
    readLiteral "0x01_00".toList = some 0x100 ∧ readLiteral "0x".toList = none ∧ readLiteral "0x_".toList = none ∧
      readLiteral [] = none ∧ readLiteral "1_0".toList = none ∧ readLiteral "0".toList = some 0 := by decide

/-! ## Arithmetic: vectors of 95_test_vectors.md sections 2.1 and 2.2 -/

/-- V-H5 and V-H15. -/
theorem test_helpers :
    split 0x0123456789abcdeffedcba9876543210 = (0x0123456789abcdef, 0xfedcba9876543210) ∧ setBitAt 0x2#64 0 = 0x3#64 := by
  decide

/-- V-M15, the scenario's product. -/
theorem test_mul128_scenario :
    mul128 44604940582656816551270015030630754342 26697901239309924063484575321349938637 =
      ⟨0x65eebaeffb65f46e, 0x221daf7fdf81d994, 0x550325d009f7035a, 0x02a2007d40a32151⟩ := by decide

/-- V-M14: both carries are 2. -/
theorem test_mul128_carries :
    carry1 0x5555555555555556fffffffffffffffc 0xfffffffffffffffdfffffffffffffffd = 2 ∧
      carry2 0x5555555555555556fffffffffffffffc 0xfffffffffffffffdfffffffffffffffd = 2 ∧
      mul128 0x5555555555555556fffffffffffffffc 0xfffffffffffffffdfffffffffffffffd =
        ⟨0xc, 0x3, 0x555555555555554d, 0x5555555555555556⟩ := by decide

/-! ## One step of a command -/

/-- The next state of an outcome. -/
def nextOf : StepOutcome → Option State
  | .next t => some t
  | .fault _ => none
  | .refused _ => none

/-- An idle core with a = 2, b = 3, d = 4 and n = 13. -/
def small : State :=
  { State.reset with a := ⟨2, 0⟩, b := ⟨3, 0⟩, dv := ⟨4, 0⟩, n := ⟨13, 0, 0, 0⟩ }

/-- A division of 13 by 5 before its iteration `k`, as the trace of V-D9 has it. -/
def dividing (k : BitVec 9) (r : BitVec 129) (q : Word) : State :=
  { State.reset with phase := .div, dvr := 5, dvd := ⟨13, 0, 0, 0⟩, racc := r, qacc := ⟨q, 0, 0, 0⟩, cnt := k }

/-- A host turn with one access in the program. -/
def atAccess (acc : Access) (s : State) : State := { s with schedule := [.host], program := [.access acc] }

/-- NOP with DONE = 1: STATUS stays 0x2 (43_control.md R150, V-C2). -/
theorem test_nop :
    (nextOf (exec .nop { small with done := true })).map statusWord = some 0x2 := by decide

/-- MUL on 2 and 3 (41_multiplier.md R113). -/
theorem test_mul_accept :
    (nextOf (exec .mul small)).map (fun t => (t.opa, t.opb, t.phase)) = some (2, 3, .mulOnly) := by decide

/-- The core step of MUL on 2 and 3 (41_multiplier.md R114). -/
theorem test_mul_step :
    (nextOf (coreStep { small with opa := 2, opb := 3, phase := .mulOnly })).map (fun t => (t.p, statusWord t)) =
      some (⟨6, 0, 0, 0⟩, 0x2) := by decide

/-- DIV of 13 by 4 (42_divider.md R133). -/
theorem test_div_accept :
    (nextOf (exec .div small)).map (fun t => (t.dvd, t.dvr, t.phase)) = some (⟨13, 0, 0, 0⟩, 4, .div) := by decide

/-- Iteration 254 of 13 divided by 5 (42_divider.md R136, V-D9). -/
theorem test_div_step :
    (nextOf (coreStep (dividing 254 3 0))).map (fun t => (t.racc, t.qacc, t.cnt, statusWord t)) =
      some (1, ⟨2, 0, 0, 0⟩, 255, 0x1) := by decide

/-- MULDIV of 2, 3 and 4 (42_divider.md R134). -/
theorem test_muldiv_accept :
    (nextOf (exec .muldiv small)).map (fun t => (t.opa, t.opb, t.dvr, t.phase)) = some (2, 3, 4, .mulThenDiv) := by decide

/-- Iteration 255 of 13 divided by 5, as in MULDIV and DIV (42_divider.md R137, V-D9). -/
theorem test_div_finish :
    (nextOf (coreStep (dividing 255 1 2))).map (fun t => (t.q, t.rm, statusWord t, t.cnt)) =
      some (⟨2, 0, 0, 0⟩, ⟨3, 0⟩, 0x2, 256) := by decide

/-- CLEAR with ERR = 1: STATUS 0x10 becomes 0x0 (43_control.md R151, V-C6). -/
theorem test_clear :
    (nextOf (exec .clear { small with err := 1 })).map statusWord = some 0x0 := by decide

/-- V-C4, V-C11, V-C13 and V-C14: STATUS after a rejected command. -/
theorem test_rejections :
    (nextOf (cmdWrite 0x2 State.reset)).map statusWord = some 0x10 ∧
      (nextOf (cmdWrite 0x1 (dividing 0 0 0))).map statusWord = some 0x51 ∧
      (nextOf (cmdWrite 0x105 (dividing 0 0 0))).map statusWord = some 0x41 ∧
      (nextOf (cmdWrite 0x2 { State.reset with err := 4 })).map statusWord = some 0x40 := by decide

/-- V-A5, V-A7 and V-A10: bus errors, which leave P0 and STATUS as they were. -/
theorem test_bus_errors :
    (nextOf (step (atAccess (.write 0x50 8 1) small))).map (fun t => (t.hostFault, t.p.l0, statusWord t)) =
        some (true, 0, 0) ∧
      (nextOf (step (atAccess (.read 0xB0 8) small))).map State.responses = some [.busError] ∧
      (nextOf (step (atAccess (.read 0x00 4) small))).map State.responses = some [.busError] := by decide

/-- 10_state.md R28: the word 0x4 stored where the core takes its commands is run as CLEAR by the next step. -/
theorem test_fetch :
    (nextOf (step (({ small with err := 5 } : State).withFetchWord 64 0x4))).map statusWord = some 0x0 := by decide

/-! ## A division of 0 by 1, whose iterations only count: the runs of the long statements' witnesses -/

/-- 0 divided by 1 before iteration `k`, with P = 0. -/
def counting (k : Nat) (s : State) : State :=
  { s with phase := .div, dvr := 1, dvd := Limbs4.zero, racc := 0, qacc := Limbs4.zero, cnt := BitVec.ofNat 9 k }

/-- The same after the last iteration. -/
def counted (s : State) : State :=
  { counting 256 s with q := Limbs4.zero, rm := Limbs2.zero, done := true, phase := .idle }

theorem counting_limb (i : Fin 4) : limbOf Limbs4.zero i = 0 := by
  match i with
  | 0 => rfl
  | 1 => rfl
  | 2 => rfl
  | 3 => rfl

theorem counting_nextRem (k : Nat) (s : State) : shiftedIn (counting k s) = 0 := by
  simp [shiftedIn, counting, counting_limb, bitAt]

theorem counting_step (k : Nat) (s : State) (h : k < 255) : coreStep (counting k s) = .next (counting (k + 1) s) := by
  have hs := counting_nextRem k s
  have hk : (counting k s).cnt.toNat = k := by simp [counting]; omega
  have hd : (counting k s).dvr.toNat = 1 := rfl
  have hr : nextRem (counting k s) = 0 := by simp [nextRem, hs, hd]
  have hq : nextQuo (counting k s) = Limbs4.zero := by simp [nextQuo, hs, hd]; rfl
  have hp : (counting k s).phase = .div := rfl
  simp only [coreStep, hp, divIteration, hk, divIters]
  rw [if_neg (by omega), if_neg (by omega)]
  simp only [iterated, hr, hq, hk]
  rfl

theorem counting_last (s : State) : coreStep (counting 255 s) = .next (counted s) := by
  have hs := counting_nextRem 255 s
  have hk : (counting 255 s).cnt.toNat = 255 := rfl
  have hd : (counting 255 s).dvr.toNat = 1 := rfl
  have hr : nextRem (counting 255 s) = 0 := by simp [nextRem, hs, hd]
  have hq : nextQuo (counting 255 s) = Limbs4.zero := by simp [nextQuo, hs, hd]; rfl
  have hp : (counting 255 s).phase = .div := rfl
  simp only [coreStep, hp, divIteration, hk, divIters]
  rw [if_neg (by omega), if_pos trivial, hr]
  simp only [divFinish, iterated, hr, hq, hk]
  rfl

theorem step_counting (k : Nat) (s : State) (h : s.schedule = []) : step (counting k s) = coreStep (counting k s) := by
  have hs : (counting k s).schedule = [] := h
  simp only [step, hs]

theorem runFor_counting (s : State) (h : s.schedule = []) :
    ∀ j k : Nat, k + j ≤ 255 → runFor j (counting k s) = .next (counting (k + j) s)
  | 0, _, _ => rfl
  | j + 1, k, hk => by
    simp only [runFor, step_counting k s h, counting_step k s (by omega)]
    rw [runFor_counting s h j (k + 1) (by omega), Nat.add_right_comm, Nat.add_assoc]

theorem runFor_last (s : State) (h : s.schedule = []) :
    ∀ j k : Nat, k + j = 255 → runFor (j + 1) (counting k s) = .next (counted s)
  | 0, k, hk => by
    obtain rfl : k = 255 := by omega
    simp only [runFor, step_counting 255 s h, counting_last]
  | j + 1, k, hk => by
    rw [runFor]
    simp only [step_counting k s h, counting_step k s (by omega)]
    exact runFor_last s h j (k + 1) (by omega)

/-! ## Witnesses of hypotheses -/

/-- An idle core with nothing but the divisor 1. -/
def unitDivisor : State := { State.reset with dv := ⟨1, 0⟩ }

/-- An idle core with the greatest dividend and the greatest divisor. -/
def greatest : State :=
  { State.reset with n := ⟨-1, -1, -1, -1⟩, dv := ⟨-1, -1⟩ }

/-- The core in slot 1, so that there are addresses below the window. -/
def slotOne : State := { State.reset with config := ⟨1⟩ }

theorem witness_StepRunsDecodedCommand :
    NextAccess (atAccess (.write 0xA0 8 2) small) (.write (small.config.windowBase + 0xA0) 8 2) [] [] ∧
      decode 2 = .command .div := by decide

theorem witness_FetchedWordRunsAsTheNextCommand : decodeTableWord 64 4 = some .clear := by decide

theorem witness_IllegalWordIsRejected :
    (NextAccess (atAccess (.write 0xA0 8 5) small) (.write (small.config.windowBase + 0xA0) 8 5) [] [] ∧
        0x05 ≤ (5 : Word).toNat % 2 ^ 8) ∧
      (NextAccess (atAccess (.write 0xA0 8 0x100) small) (.write (small.config.windowBase + 0xA0) 8 0x100) [] [] ∧
        (0x100 : Word).toNat / 2 ^ 8 ≠ 0) := by decide

theorem witness_DecodeIsExactOnEveryWord :
    decode 4 = .command .clear ∧ decode 5 = .illegal ∧ decode (-1) = .illegal := by decide

theorem witness_ByteStringDecodesToOneEncodingOnly :
    Instr.clear.wf = true ∧ decodeBytes [4, 0, 0, 0, 0, 0, 0, 0] = .command .clear := by decide

theorem witness_BitExtractionEqualsShiftAndMask : (63 : Nat) ≤ 63 ∧ bitAt (-1) 63 = 1 ∧ bitAt (-1) 0 = 1 := by decide

theorem witness_SettingAClearBitAddsItsWeight :
    bitAt 0x7fffffffffffffff#64 63 = 0 ∧ bitAt 0xfffffffffffffffe#64 0 = 0 := by decide

theorem witness_IterationReadsTheDividendFromTheTop :
    bitAt (limbOf Limbs4.zero (iterLimb 0)) (iterPos 0) = 0 ∧ bitAt (limbOf Limbs4.zero (iterLimb 255)) (iterPos 255) = 0 := by
  decide

theorem witness_SplitAndJoinAreInverse :
    (2 ^ 128 - 1 < 2 ^ 128) ∧ (2 ^ 256 - 1 < 2 ^ 256) ∧ join2 ⟨-1, -1⟩ = 2 ^ 128 - 1 ∧ join4 ⟨-1, -1, -1, -1⟩ = 2 ^ 256 - 1 := by
  decide

theorem witness_MultiplierIsExact : join4 (mul128 (2 ^ 128 - 1) (2 ^ 128 - 1)) = (2 ^ 128 - 1) * (2 ^ 128 - 1) := by decide

theorem witness_MultiplierCarryBounds :
    sum1 0x10000000000000003 0x5555555555555555ffffffffffffffff = 0x20000000000000000 ∧
      sum2 0x5555555555555553fffffffffffffffd 0xfffffffffffffffcfffffffffffffffd = 0x20000000000000000 := by decide

theorem witness_MultiplierCornerCases :
    mul128 0 (2 ^ 128 - 1) = ⟨0, 0, 0, 0⟩ ∧ mul128 1 (2 ^ 128 - 1) = ⟨-1, -1, 0, 0⟩ := by decide

theorem witness_MulIsAcceptedWhenIdle : greatest.phase = .idle := by decide

theorem witness_DivIsAcceptedWhenIdle :
    (unitDivisor.phase = .idle ∧ unitDivisor.dv.l1 ++ unitDivisor.dv.l0 ≠ 0#128) ∧
      (greatest.phase = .idle ∧ greatest.dv.l1 ++ greatest.dv.l0 ≠ 0#128) := by decide

/-- A divisor whose low limb is 0 is no zero divisor. -/
theorem witness_MuldivIsAcceptedWhenIdle :
    ({ small with dv := ⟨0, 1⟩ } : State).phase = .idle ∧
      ({ small with dv := ⟨0, 1⟩ } : State).dv.l1 ++ ({ small with dv := ⟨0, 1⟩ } : State).dv.l0 ≠ 0#128 := by decide

theorem witness_ComputeWhileBusyIsRejected :
    (dividing 0 0 0).phase ≠ .idle ∧ ({ small with phase := .mulOnly } : State).phase ≠ .idle ∧
      ({ small with phase := .mulThenDiv } : State).phase ≠ .idle := by decide

theorem witness_ZeroDivisorIsRejected :
    State.reset.phase = .idle ∧ State.reset.dv.l0 = 0 ∧ State.reset.dv.l1 = 0 := by decide

/-- The clauses of CmdWriteChecksInOrder: ERR held and ERR 0; illegal, busy, zero divisor, none, CLEAR. -/
theorem witness_CmdWriteChecksInOrder :
    (nextOf (cmdWrite 5 { State.reset with err := 1 })).map State.err = some 1 ∧
      (nextOf (cmdWrite 5 State.reset)).map State.err = some 4 ∧
      (nextOf (cmdWrite 3 (dividing 0 0 0))).map State.err = some 5 ∧
      (nextOf (cmdWrite 3 State.reset)).map State.err = some 1 ∧
      (nextOf (cmdWrite 1 State.reset)).map State.err = some 0 ∧
      (nextOf (cmdWrite 4 { State.reset with err := 1 })).map State.err = some 0 := by decide

/-- FirstErrorWins with ERR = 0 and with ERR held. -/
theorem witness_FirstErrorWins :
    (raise .busyReject State.reset).err = 5 ∧ (raise .busyReject { State.reset with err := 4 }).err = 4 := by decide

theorem witness_HeldErrorDoesNotBlockCommands : ∃ t : State, coreStep (dividing 254 3 0) = .next t := ⟨_, rfl⟩

/-- CommandFrame's clauses: a busy state, an error held. -/
theorem witness_CommandFrame : (dividing 0 0 0).phase ≠ .idle ∧ ({ small with err := 1 } : State).err ≠ 0 := by decide

theorem witness_CoreTurnTakesOneCoreStep :
    ({ dividing 0 0 0 with schedule := [.core] } : State).schedule = [.core] ∧ (dividing 0 0 0).schedule = [] ∧
      small.phase = .idle := by decide

theorem witness_MultiplyStepWritesTheProduct :
    ({ small with opa := -1, opb := -1, phase := .mulOnly } : State).phase = .mulOnly := by decide

theorem witness_MuldivMultiplyStepStartsTheDivision :
    ({ small with opa := -1, opb := -1, phase := .mulThenDiv } : State).phase = .mulThenDiv := by decide

/-- Iteration 254 (the subtraction happens) and iteration 0 (it does not). -/
theorem witness_DivisionIterationShiftsAndSubtracts :
    ((dividing 254 3 0).phase = .div ∧ (dividing 254 3 0).cnt.toNat < 255 ∧
        (dividing 254 3 0).racc.toNat < (dividing 254 3 0).dvr.toNat ∧
        join4 (dividing 254 3 0).qacc / 2 ^ (255 - (dividing 254 3 0).cnt.toNat) % 2 = 0 ∧
        6 = 2 * (dividing 254 3 0).racc.toNat + join4 (dividing 254 3 0).dvd / 2 ^ (255 - (dividing 254 3 0).cnt.toNat) % 2) ∧
      ((dividing 0 0 0).phase = .div ∧ (dividing 0 0 0).cnt.toNat < 255 ∧
        (dividing 0 0 0).racc.toNat < (dividing 0 0 0).dvr.toNat ∧
        join4 (dividing 0 0 0).qacc / 2 ^ (255 - (dividing 0 0 0).cnt.toNat) % 2 = 0 ∧
        0 = 2 * (dividing 0 0 0).racc.toNat + join4 (dividing 0 0 0).dvd / 2 ^ (255 - (dividing 0 0 0).cnt.toNat) % 2) := by
  decide

/-- The last iteration of 13 by 5 (no subtraction, 3), and one entered with 2 instead of 1 (5, which is subtracted). -/
theorem witness_LastIterationWritesQuotientAndRemainder :
    ((dividing 255 1 2).phase = .div ∧ (dividing 255 1 2).cnt.toNat = 255 ∧
        (dividing 255 1 2).racc.toNat < (dividing 255 1 2).dvr.toNat ∧ join4 (dividing 255 1 2).qacc % 2 = 0 ∧
        3 = 2 * (dividing 255 1 2).racc.toNat + join4 (dividing 255 1 2).dvd % 2) ∧
      ((dividing 255 2 2).phase = .div ∧ (dividing 255 2 2).cnt.toNat = 255 ∧
        (dividing 255 2 2).racc.toNat < (dividing 255 2 2).dvr.toNat ∧ join4 (dividing 255 2 2).qacc % 2 = 0 ∧
        5 = 2 * (dividing 255 2 2).racc.toNat + join4 (dividing 255 2 2).dvd % 2) := by decide

theorem witness_MulCompletesAfterOneCoreStep : small.phase = .idle := by decide

theorem witness_DividingCommandsCompleteOnTheirLastCoreStep :
    small.phase = .idle ∧ join2 small.dv ≠ 0 ∧ 13 = join4 small.n ∧ 6 = join2 small.a * join2 small.b := by decide

/-- One state for each clause of DivisionCornerCases. -/
theorem witness_DivisionCornerCases :
    (unitDivisor.phase = .idle ∧ join4 unitDivisor.n = 0 ∧ join2 unitDivisor.dv = 1) ∧
      (greatest.phase = .idle ∧ join4 greatest.n = 2 ^ 256 - 1 ∧ join2 greatest.dv = 2 ^ 128 - 1) ∧
      join4 { small with n := ⟨3, 0, 0, 0⟩ }.n < join2 small.dv ∧ join4 { small with n := ⟨4, 0, 0, 0⟩ }.n = join2 small.dv ∧
      join4 { greatest with dv := ⟨2, 0⟩ }.n = 2 ^ 256 - 1 ∧ join2 { greatest with dv := ⟨2, 0⟩ }.dv = 2 := by decide

/-- The invariants hold inside a division: 13 by 5 before iteration 254. -/
theorem inv_iteration_254 : CoreInv (dividing 254 3 0) := by decide

/-- And before iteration 255. -/
theorem inv_iteration_255 : CoreInv (dividing 255 1 2) := by decide

/-- A MULDIV just accepted meets them. -/
theorem inv_muldiv : CoreInv { small with phase := .mulThenDiv, dvr := 4 } := by decide

theorem witness_EveryStepKeepsTheInvariants :
    CoreInv (dividing 254 3 0) ∧ nextOf (step (dividing 254 3 0)) = some (dividing 255 1 2) :=
  ⟨inv_iteration_254, by decide⟩

/-- A reachable state in phase DIV: reset, a write of DV0, a DIV. -/
theorem witness_reachable_division : ∃ s : State, Reachable s ∧ s.phase = .div ∧ s.dvr = 1 :=
  ⟨_, .next _ _ (.next _ _ (.start ⟨0⟩ [.access (.write 0x20 8 1), .access (.write 0xA0 8 2)] [.host, .host]) rfl) rfl,
    rfl, rfl⟩

/-- A reachable state with an error recorded. -/
theorem witness_reachable_error : ∃ s : State, Reachable s ∧ s.err = 4 :=
  ⟨_, .next _ _ (.start ⟨0⟩ [.access (.write 0xA0 8 5)] [.host]) rfl, rfl⟩

theorem witness_ReachableStepsNeverStop : CoreInv State.reset ∧ nextOf (step State.reset) = some State.reset := by decide

/-- The clauses of DivisionStepOutsideItsRangeFaults: the first counter value out of range; the last one in range with r below
the divisor, with r above it (an accumulator of 7, no run's), and with an r of more than 129 bits; and the first. -/
theorem witness_DivisionStepOutsideItsRangeFaults :
    ((dividing 256 0 0).phase = .div ∧ 255 < (dividing 256 0 0).cnt.toNat) ∧
      ((dividing 255 1 2).cnt.toNat = 255 ∧ nextRem (dividing 255 1 2) < (dividing 255 1 2).dvr.toNat) ∧
      ((dividing 255 7 2).cnt.toNat = 255 ∧ (dividing 255 7 2).dvr.toNat ≤ nextRem (dividing 255 7 2)) ∧
      ((dividing 255 (-1) 2).cnt.toNat ≤ 255 ∧ 2 ^ 129 ≤ nextRem (dividing 255 (-1) 2)) ∧
      (dividing 0 0 0).cnt.toNat < 255 := by decide

/-- The defensive check of 42_divider.md R137, with accumulators that no run holds, the second too great for r to fit: code 3,
no result, phase IDLE. -/
theorem test_div_check :
    (nextOf (coreStep (dividing 255 7 2))).map (fun t => (t.q, t.rm, statusWord t, t.cnt)) =
        some (⟨0, 0, 0, 0⟩, ⟨0, 0⟩, 0x30, 256) ∧
      (nextOf (coreStep (dividing 255 (-1) 2))).map (fun t => (t.q, t.qacc, statusWord t, t.cnt)) =
        some (⟨0, 0, 0, 0⟩, ⟨3, 0, 0, 0⟩, 0x30, 256) := by decide

/-! ## The end of a run (70_reset_and_hazards.md R192) -/

/-- A program of one DIV, whose run ends at the host step, with the division in progress; a core step follows. -/
def endsBusy : State :=
  { small with schedule := [.host, .core], program := hostOps small.config [.cmd .div] }

/-- R192: the end state is the state at the step that performs the last statement, here busy, and not a later one. -/
theorem test_run_end :
    (endStateWithin 2 endsBusy).map (fun e => (e.cnt, statusWord e, e.schedule)) = some (0, 0x1, [.core]) := by decide

/-- A run that ends with a bus error is not successful: its end state has the host fault (20_memory.md R55). -/
theorem test_run_fault :
    (endStateWithin 1 (atAccess (.read 0xA0 8) small)).map State.hostFault = some true := by decide

/-- BusyCoreGoesIdle, at both ends of the count: the last iteration, and a MULDIV just accepted. -/
theorem witness_BusyCoreGoesIdle :
    (CoreInv (dividing 255 1 2) ∧ (dividing 255 1 2).phase ≠ .idle) ∧
      CoreInv { small with phase := .mulThenDiv, dvr := 4 } :=
  ⟨⟨inv_iteration_255, by decide⟩, inv_muldiv⟩

/-- An outcome from its next state. -/
theorem nextOf_eq {o : StepOutcome} {t : State} (h : nextOf o = some t) : o = .next t := by
  cases o <;> simp_all [nextOf]

/-- DIV of 0 by 1 is accepted. -/
theorem counting_accepted : exec .div unitDivisor = .next (counting 0 unitDivisor) := nextOf_eq (by decide)

/-- DIV accepted with n = 0 and d = 1: after 255 steps it is still busy, after 256 it is done. -/
theorem witness_DivisionResultIsScheduleIndependent :
    unitDivisor.phase = .idle ∧ join2 unitDivisor.dv ≠ 0 ∧ 0 = join4 unitDivisor.n ∧
      exec .div unitDivisor = .next (counting 0 unitDivisor) ∧ Agent.reset ∉ (counting 0 unitDivisor).schedule ∧
      runFor 255 (counting 0 unitDivisor) = .next (counting 255 unitDivisor) ∧
      runFor 256 (counting 0 unitDivisor) = .next (counted unitDivisor) :=
  ⟨rfl, by decide, by decide, counting_accepted, by decide, runFor_counting unitDivisor rfl 255 0 (by decide),
    runFor_last unitDivisor rfl 255 0 rfl⟩

/-- No state of that division before its end is a reset's turn, or accepts a command. -/
theorem counting_quiet (s : State) (h : s.schedule = []) (j : Nat) (hj : j < 256) (u : State)
    (hu : runFor j (counting 0 s) = .next u) : ¬ ResetTurn u ∧ ¬ AcceptsNext u := by
  rw [runFor_counting s h j 0 (by omega)] at hu
  cases hu
  exact ⟨by simp [counting, h], fun hc => nomatch hc.1⟩

/-- MUL: one core step. -/
theorem witness_PolledResultsAreComplete_mul :
    small.phase = .idle ∧ exec .mul small = .next { small with opa := 2, opb := 3, phase := .mulOnly } ∧
      (∀ (j : Nat) (u : State), j < 1 → runFor j { small with opa := 2, opb := 3, phase := .mulOnly } = .next u →
        ¬ ResetTurn u ∧ ¬ AcceptsNext u) ∧
      ∃ t : State, runFor 1 { small with opa := 2, opb := 3, phase := .mulOnly } = .next t ∧
        (statusWord t).getLsbD 0 = false ∧ (statusWord t).getLsbD 1 = true := by
  refine ⟨rfl, rfl, fun j u hj hu => ?_, _, rfl, by decide, by decide⟩
  obtain rfl : j = 0 := by omega
  cases hu
  exact ⟨by decide, fun hc => nomatch hc.1⟩

/-- DIV of 0 by 1: 256 core steps. -/
theorem witness_PolledResultsAreComplete_div :
    unitDivisor.phase = .idle ∧ join2 unitDivisor.dv ≠ 0 ∧ exec .div unitDivisor = .next (counting 0 unitDivisor) ∧
      (∀ (j : Nat) (u : State), j < 256 → runFor j (counting 0 unitDivisor) = .next u → ¬ ResetTurn u ∧ ¬ AcceptsNext u) ∧
      runFor 256 (counting 0 unitDivisor) = .next (counted unitDivisor) ∧
      (statusWord (counted unitDivisor)).getLsbD 0 = false ∧ (statusWord (counted unitDivisor)).getLsbD 1 = true :=
  ⟨rfl, by decide, counting_accepted, fun j u hj => counting_quiet unitDivisor rfl j hj u, runFor_last unitDivisor rfl 255 0 rfl, by decide, by decide⟩

/-- MULDIV of 0 * 0 by 1: 257 core steps. -/
theorem witness_PolledResultsAreComplete_muldiv :
    exec .muldiv unitDivisor = .next { counting 0 unitDivisor with phase := .mulThenDiv } ∧
      (∀ (j : Nat) (u : State), j < 257 → runFor j { counting 0 unitDivisor with phase := .mulThenDiv } = .next u →
        ¬ ResetTurn u ∧ ¬ AcceptsNext u) ∧
      runFor 257 { counting 0 unitDivisor with phase := .mulThenDiv } = .next (counted unitDivisor) := by
  have h1 : step { counting 0 unitDivisor with phase := .mulThenDiv } = .next (counting 0 unitDivisor) := nextOf_eq (by decide)
  refine ⟨nextOf_eq (by decide), fun j u hj hu => ?_, ?_⟩
  · cases j with
    | zero => cases hu; exact ⟨by decide, fun hc => nomatch hc.1⟩
    | succ j =>
      rw [runFor, h1] at hu
      exact counting_quiet unitDivisor rfl j (by omega) u hu
  · rw [runFor, h1]
    exact runFor_last unitDivisor rfl 255 0 rfl

/-- The first, the last and the STATUS offset of the admitted reads. -/
theorem witness_AdmittedReadReturnsTheRegister :
    (AdmittedRead 0x00 8 ∧ AdmittedRead 0x98 8 ∧ AdmittedRead 0xA8 8) ∧
      NextAccess (atAccess (.read 0xA8 8) small) (.read (small.config.windowBase + 0xA8) 8) [] [] := by decide

/-- The last offset of the admitted operand writes. -/
theorem witness_AdmittedWriteStoresOnlyItsRegister :
    0x48 % 8 = 0 ∧ NextAccess (atAccess (.write 0x48 8 7) small) (.write (small.config.windowBase + 0x48) 8 7) [] [] := by decide

/-- Each reason of 20_memory.md R55, at its boundary: size, alignment, the reserved offsets, RO, CMD. -/
theorem witness_UnadmittedAccessIsABusError :
    ¬ AdmittedRead 0x00 4 ∧ ¬ AdmittedRead 0x04 8 ∧ ¬ AdmittedRead 0xB0 8 ∧ ¬ AdmittedRead 0xF8 8 ∧ ¬ AdmittedRead 0xFF 8 ∧
      ¬ AdmittedRead 0xA0 8 ∧ ¬ AdmittedWrite 0x50 8 ∧ ¬ AdmittedWrite 0x98 8 ∧ ¬ AdmittedWrite 0xA8 8 ∧
      ¬ AdmittedWrite 0xA0 1 ∧ ¬ AdmittedWrite 0xB0 8 ∧
      NextAccess (atAccess (.read 0xFF 8) small) (.read (small.config.windowBase + 0xFF) 8) [] [] := by decide

/-- A reset with a host fault recorded, and an access that records one. -/
theorem witness_HostFaultIsNeverCleared :
    ({ small with hostFault := true, schedule := [.reset] } : State).hostFault = true ∧
      (nextOf (step { small with hostFault := true, schedule := [.reset] })).map State.hostFault = some true ∧
      (atAccess (.read 0xA0 8) small).hostFault = false ∧ ¬ AdmittedRead 0xA0 8 ∧
      NextAccess (atAccess (.read 0xA0 8) small) (.read (small.config.windowBase + 0xA0) 8) [] [] ∧
      (nextOf (step (atAccess (.read 0xA0 8) small))).map State.hostFault = some true := by decide

/-- The last address below the window of slot 1, and the first one above it. -/
theorem witness_AccessOutsideTheWindowIsNotSeen :
    0xFF < slotOne.config.windowBase ∧ slotOne.config.windowBase + 0x100 ≤ 0x200 ∧
      NextAccess (atAccess (.read 0xFF 8) slotOne) (.read 0xFF 8) [] [] ∧
      NextAccess (atAccess (.write 0x200 8 1) slotOne) (.write 0x200 8 1) [] [] := by decide

/-- A host write and a reset that change N3. -/
theorem witness_OperandRegistersChangeByHostWritesOnly :
    Reg.n3.right = .rw ∧ ((nextOf (step (atAccess (.write 0x48 8 7) small))).bind (readReg · .n3)) = some 7 ∧
      readReg small .n3 = some 0 ∧
      ((nextOf (step { small with schedule := [.reset] })).bind (readReg · .n0)) = some 0 ∧ readReg small .n0 = some 13 := by
  decide

/-- A multiply step that changes P, and a last iteration that changes Q and RM. -/
theorem witness_ResultRegistersChangeAtCompletionOnly :
    ((nextOf (step { small with opa := 2, opb := 3, phase := .mulOnly })).map State.p ≠ some small.p ∧ ¬ ResetTurn small) ∧
      (nextOf (step (dividing 255 1 2))).map State.q ≠ some (dividing 255 1 2).q ∧
      (nextOf (step (dividing 255 1 2))).map State.rm ≠ some (dividing 255 1 2).rm ∧ ¬ ResetTurn (dividing 255 1 2) := by
  decide

theorem witness_HostStepKeepsTheRunningCommand :
    HostTurn (atAccess (.write 0xA0 8 1) (dividing 254 3 0)) ∧ (atAccess (.write 0xA0 8 1) (dividing 254 3 0)).phase ≠ .idle ∧
      (nextOf (step (atAccess (.write 0xA0 8 1) (dividing 254 3 0)))).map State.err = some 5 := by decide

/-- DONE set by a last iteration; cleared by a CMD write and by a reset; left at 0 by an illegal word. -/
theorem witness_DoneChangesOnlyAsSpecified :
    ((dividing 255 1 2).done = false ∧ (nextOf (step (dividing 255 1 2))).map State.done = some true) ∧
      (nextOf (step (atAccess (.write 0xA0 8 4) { small with done := true }))).map State.done = some false ∧
      (nextOf (step { small with done := true, schedule := [.reset] })).map State.done = some false ∧
      (nextOf (step (atAccess (.write 0xA0 8 5) { small with done := true }))).map State.done = some false := by decide

/-- ERR cleared by CLEAR and by a reset. -/
theorem witness_ErrClearsOnlyByClearOrReset :
    (nextOf (step (atAccess (.write 0xA0 8 4) { small with err := 5 }))).map State.err = some 0 ∧
      (nextOf (step { small with err := 5, schedule := [.reset] })).map State.err = some 0 := by decide

/-- A reset in the middle of a division. -/
theorem witness_ResetStepClearsTheCore :
    ({ dividing 254 3 0 with schedule := [.reset, .core] } : State).schedule = [.reset, .core] := by decide

theorem witness_PlatformStaysFixed : nextOf (step slotOne) = some slotOne := by decide

/-- `k` host turns with a statement's accesses in the program. -/
def atStmt (k : Nat) (st : HostStmt) : State :=
  { small with schedule := List.replicate k .host, program := hostOps small.config [st] }

/-- The greatest literals of both statements. -/
theorem witness_Wr128AndWr256LoadTheirOperands :
    ((HostStmt.wr128 .dv (2 ^ 128 - 1)).wf = true ∧ (atStmt 2 (.wr128 .dv (2 ^ 128 - 1))).schedule = [.host, .host] ∧
        (atStmt 2 (.wr128 .dv (2 ^ 128 - 1))).program = hostOps small.config [.wr128 .dv (2 ^ 128 - 1)] ++ []) ∧
      (HostStmt.wr256N (2 ^ 256 - 1)).wf = true ∧
      (atStmt 4 (.wr256N (2 ^ 256 - 1))).schedule = [.host, .host, .host, .host] ∧
      (atStmt 4 (.wr256N (2 ^ 256 - 1))).program = hostOps small.config [.wr256N (2 ^ 256 - 1)] ++ [] := by decide

theorem witness_Rd256AndRd128GiveTheResult :
    ((atStmt 4 (.rd256 .q)).schedule = [.host, .host, .host, .host] ∧
        (atStmt 4 (.rd256 .q)).program = hostOps small.config [.rd256 .q] ++ []) ∧
      (atStmt 2 .rd128RM).schedule = [.host, .host] ∧ (atStmt 2 .rd128RM).program = hostOps small.config [.rd128RM] ++ [] := by
  decide

/-- A poll of an idle core and of a busy one, as the last statement. -/
theorem witness_PollRepeatsWhileBusy :
    (nextOf (step { small with schedule := [.host], program := [.poll] })).map State.program = some [] ∧
      (nextOf (step { dividing 0 0 0 with schedule := [.host], program := [.poll] })).map State.program = some [.poll] := by
  decide

end Sys2Proof.Tests
end

/-! SUPPORT. The platform parameter (00_scope.md R6, 20_memory.md R50): every part of a step keeps it. -/

namespace Sys2Proof.Machine

@[simp] theorem clearErr_config (s : State) : (clearErr s).config = s.config := rfl

@[simp] theorem rejectIllegal_config (s : State) : (rejectIllegal s).config = s.config := raise_config _ _

@[simp] theorem abandonCommand_config (s : State) : (abandonCommand s).config = s.config := raise_config _ s

theorem dispatchCompute_config {divides : Bool} {accept : State → State} (h : ∀ s, (accept s).config = s.config)
    (s : State) : (dispatchCompute divides accept s).config = s.config := by
  rcases dispatchCompute_cases divides accept s with ⟨_, e⟩ | ⟨_, _, _, e⟩ | ⟨_, _, e⟩ <;> rw [e]
  · exact raise_config _ _
  · exact raise_config _ _
  · exact h _

@[simp] theorem mulStepOnly_config (s : State) : (mulStepOnly s).config = s.config := by
  unfold mulStepOnly
  split
  · rfl
  · exact abandonCommand_config s

@[simp] theorem mulStepThenDiv_config (s : State) : (mulStepThenDiv s).config = s.config := by
  unfold mulStepThenDiv
  split
  · rfl
  · exact abandonCommand_config s

@[simp] theorem divFinish_config (r' : Nat) (q' : Limbs4) (s : State) : (divFinish r' q' s).config = s.config := by
  unfold divFinish
  split
  · exact abandonCommand_config s
  · rfl

theorem exec_config {i : Instr} {s t : State} (h : exec i s = .next t) : t.config = s.config := by
  cases i <;> cases h
  case nop => rfl
  case mul => exact dispatchCompute_config (accept := mulAccept) (fun _ => rfl) s
  case div => exact dispatchCompute_config (accept := divAccept) (fun _ => rfl) s
  case muldiv => exact dispatchCompute_config (accept := muldivAccept) (fun _ => rfl) s
  case clear => exact clearErr_config _

theorem cmdWrite_config {w : Word} {s t : State} (h : cmdWrite w s = .next t) : t.config = s.config := by
  unfold cmdWrite at h
  split at h
  · exact exec_config h
  · cases h
    exact rejectIllegal_config s

theorem performAccess_config {acc : Access} {s t : State} (h : performAccess acc s = .next t) : t.config = s.config := by
  rcases performAccess_cases acc s with e | ⟨v, e⟩ | e | ⟨r, v, u, _, hw, e⟩ | ⟨w, u, _, hc, e⟩ <;> rw [e] at h <;> cases h
  · exact respond_config _ s
  · exact respond_config _ s
  · exact busError_config s
  · rw [writeReg_some hw]
    exact respond_config .ack s
  · exact (cmdWrite_config hc).trans (respond_config _ s)

theorem hostStep_config {s t : State} (h : hostStep s = .next t) : t.config = s.config := by
  rcases hostStep_cases s with ⟨_, e⟩ | ⟨_, _, _, e⟩ | ⟨_, _, _, e⟩ <;> rw [e] at h
  · cases h
    rfl
  · exact (performAccess_config h).trans rfl
  · exact (performAccess_config h).trans rfl

theorem divIteration_config {s t : State} (h : divIteration s = .next t) : t.config = s.config := by
  rcases divIteration_cases s with ⟨_, e⟩ | ⟨_, e⟩ | ⟨_, e⟩ <;> rw [e] at h <;> cases h
  · exact divFinish_config _ _ (iterated s)
  · rfl

theorem coreStep_config {s t : State} (h : coreStep s = .next t) : t.config = s.config := by
  unfold coreStep at h
  split at h
  · cases h
    rfl
  · cases h
    exact mulStepOnly_config s
  · cases h
    exact mulStepThenDiv_config s
  · exact divIteration_config h

/-- No agent's step changes `WINDOW_BASE`, a reset included (log 20). -/
theorem step_config {s t : State} (h : step s = .next t) : t.config = s.config := by
  rcases step_cases s with ⟨_, e⟩ | ⟨_, _, e⟩ | ⟨_, _, e⟩ | ⟨_, _, e⟩ <;> rw [e] at h
  · exact coreStep_config h
  · exact (hostStep_config h).trans rfl
  · exact (coreStep_config h).trans rfl
  · cases h
    rfl

theorem windowBase_mod_windowSize (c : Config) : c.windowBase % windowSize = 0 := Nat.mul_mod_right windowSize c.windowSlot

/-- Settles O57: each agent's step keeps the platform, and the base is a multiple of the window's size by construction. -/
theorem platformStaysFixed : Obligations.PlatformStaysFixed := by
  unfold Obligations.PlatformStaysFixed
  exact ⟨fun _ _ h => step_config h, windowBase_mod_windowSize⟩

end Sys2Proof.Machine

/-! SUPPORT. Limb arithmetic (40_limb_helpers.md, 41_multiplier.md R112 and R115, 42_divider.md R132): what a limb array is worth,
what one bit of it is, and that the multiplier loses no carry. -/

namespace Sys2Proof.Machine

theorem join2_lt (x : Limbs2) : join2 x < 2 ^ 128 := by
  have h0 := x.l0.isLt
  have h1 := x.l1.isLt
  unfold join2
  omega

theorem join4_lt (x : Limbs4) : join4 x < 2 ^ 256 := by
  have h0 := x.l0.isLt
  have h1 := x.l1.isLt
  have h2 := x.l2.isLt
  have h3 := x.l3.isLt
  unfold join4
  omega

@[simp] theorem join4_zero : join4 Limbs4.zero = 0 := rfl

theorem hi_lo (v : Nat) : hi v * 2 ^ 64 + lo v = v := Nat.div_add_mod' v (2 ^ 64)

/-- Limb `i` of an array is its value's bits from `64 i` on (00_scope.md R10). -/
theorem limbOf_toNat (x : Limbs4) (i : Fin 4) : (limbOf x i).toNat = join4 x / 2 ^ (64 * i.val) % 2 ^ 64 := by
  have h0 := x.l0.isLt
  have h1 := x.l1.isLt
  have h2 := x.l2.isLt
  have h3 := x.l3.isLt
  match i with
  | 0 => change x.l0.toNat = join4 x / 2 ^ 0 % 2 ^ 64; unfold join4; omega
  | 1 => change x.l1.toNat = join4 x / 2 ^ 64 % 2 ^ 64; unfold join4; omega
  | 2 => change x.l2.toNat = join4 x / 2 ^ 128 % 2 ^ 64; unfold join4; omega
  | 3 => change x.l3.toNat = join4 x / 2 ^ 192 % 2 ^ 64; unfold join4; omega

/-- Replacing limb `i` moves the array's value by the difference of the limbs at weight `2^(64 i)` (00_scope.md R10). -/
theorem join4_setLimb (x : Limbs4) (i : Fin 4) (v : Word) :
    join4 (setLimb x i v) + (limbOf x i).toNat * 2 ^ (64 * i.val) = join4 x + v.toNat * 2 ^ (64 * i.val) := by
  match i with
  | 0 => change join4 { x with l0 := v } + x.l0.toNat * 2 ^ 0 = join4 x + v.toNat * 2 ^ 0; simp only [join4]; omega
  | 1 => change join4 { x with l1 := v } + x.l1.toNat * 2 ^ 64 = join4 x + v.toNat * 2 ^ 64; simp only [join4]; omega
  | 2 => change join4 { x with l2 := v } + x.l2.toNat * 2 ^ 128 = join4 x + v.toNat * 2 ^ 128; simp only [join4]; omega
  | 3 => change join4 { x with l3 := v } + x.l3.toNat * 2 ^ 192 = join4 x + v.toNat * 2 ^ 192; simp only [join4]; omega

/-- A limb's bit is the array's bit at the limb's offset plus the position (40_limb_helpers.md R105). -/
theorem bitAt_limbOf (x : Limbs4) (i : Fin 4) {p : Nat} (hp : p ≤ 63) :
    bitAt (limbOf x i) p = join4 x / 2 ^ (64 * i.val + p) % 2 := by
  have hw : 2 ^ 64 = 2 ^ p * 2 ^ (64 - p) := by rw [← pow_add]; congr 1; omega
  have hd : 2 ∣ 2 ^ (64 - p) := dvd_pow_self 2 (by omega)
  rw [bitAt, limbOf_toNat, hw, Nat.mod_mul_right_div_self, Nat.mod_mod_of_dvd _ hd, Nat.div_div_eq_div_mul, ← pow_add]

/-- Setting a clear bit adds its weight (40_limb_helpers.md R106). -/
theorem setBitAt_toNat {x : Word} {p : Nat} (hp : p ≤ 63) (hx : bitAt x p = 0) :
    (setBitAt x p).toNat = x.toNat + 2 ^ p := by
  have hpow : (BitVec.ofNat 64 (2 ^ p)).toNat = 2 ^ p := by
    rw [BitVec.toNat_ofNat, Nat.mod_eq_of_lt (Nat.pow_lt_pow_right (by decide) (by omega))]
  have hbit : x.toNat.testBit p = false := by
    rw [Nat.testBit_eq_decide_div_mod_eq, decide_eq_false_iff_not]
    unfold bitAt at hx
    omega
  have hand : x &&& BitVec.ofNat 64 (2 ^ p) = 0#64 := by
    apply BitVec.eq_of_toNat_eq
    rw [BitVec.toNat_and, hpow, Nat.and_two_pow, hbit, Bool.toNat_false, Nat.zero_mul, BitVec.toNat_zero]
  rw [setBitAt, ← BitVec.add_eq_or_of_and_eq_zero _ _ hand, BitVec.toNat_add_of_and_eq_zero hand, hpow]

theorem iterPos_le (k : Nat) : iterPos k ≤ 63 := Nat.sub_le 63 _

/-- Limb and position of iteration `k` make bit `255 - k` (42_divider.md R132). -/
theorem iterLimb_iterPos {k : Nat} (hk : k ≤ 255) : 64 * (iterLimb k).val + iterPos k = 255 - k := by
  simp only [iterLimb, iterPos]
  omega

/-- Iteration `k` reads bit `255 - k` of a limb array (42_divider.md R132). -/
theorem bitAt_iteration (x : Limbs4) {k : Nat} (hk : k ≤ 255) :
    bitAt (limbOf x (iterLimb k)) (iterPos k) = join4 x / 2 ^ (255 - k) % 2 := by
  rw [bitAt_limbOf x _ (iterPos_le k), iterLimb_iterPos hk]

/-- Iteration `k`'s quotient bit, set where it is clear, adds `2^(255 - k)` (42_divider.md R132, R136). -/
theorem join4_setBit_iteration (x : Limbs4) {k : Nat} (hk : k ≤ 255)
    (hx : bitAt (limbOf x (iterLimb k)) (iterPos k) = 0) :
    join4 (setLimb x (iterLimb k) (setBitAt (limbOf x (iterLimb k)) (iterPos k))) = join4 x + 2 ^ (255 - k) := by
  have hset := join4_setLimb x (iterLimb k) (setBitAt (limbOf x (iterLimb k)) (iterPos k))
  have hweight : 2 ^ iterPos k * 2 ^ (64 * (iterLimb k).val) = 2 ^ (255 - k) := by
    rw [← pow_add, ← iterLimb_iterPos hk, Nat.add_comm]
  rw [setBitAt_toNat (iterPos_le k) hx, Nat.add_mul, hweight] at hset
  omega

/-- The four limbs of 41_multiplier.md R112, before any narrowing of `limb_3`, weigh exactly the product. -/
theorem mul_eq_limb_sum (a b : Nat) :
    a * b = limb3 a b * 2 ^ 192 + sum2 a b % 2 ^ 64 * 2 ^ 128 + sum1 a b % 2 ^ 64 * 2 ^ 64 + lo (partialProducts a b).ll := by
  have hprod : a * b = hi a * hi b * 2 ^ 128 + (lo a * hi b + hi a * lo b) * 2 ^ 64 + lo a * lo b :=
    calc a * b = (hi a * 2 ^ 64 + lo a) * (hi b * 2 ^ 64 + lo b) := by rw [hi_lo, hi_lo]
      _ = hi a * hi b * 2 ^ 128 + (lo a * hi b + hi a * lo b) * 2 ^ 64 + lo a * lo b := by ring
  simp only [hprod, limb3, sum2, sum1, carry2, carry1, partialProducts]
  generalize hi a * hi b = hh
  generalize lo a * hi b = lh
  generalize hi a * lo b = hl
  generalize lo a * lo b = ll
  unfold hi lo
  omega

/-- The defensive check of 41_multiplier.md R115 passes for 128-bit operands: the product has no bit above 255. -/
theorem limb3_lt {a b : Nat} (ha : a < 2 ^ 128) (hb : b < 2 ^ 128) : limb3 a b < 2 ^ 64 := by
  have hlt : a * b < 2 ^ 128 * 2 ^ 128 := Nat.mul_lt_mul'' ha hb
  have hsum := mul_eq_limb_sum a b
  omega

/-- The core step of phase MUL_ONLY, whose check passes whatever the latches hold (41_multiplier.md R114, R115). -/
theorem mulStepOnly_eq (s : State) :
    mulStepOnly s = { s with p := mul128 s.opa.toNat s.opb.toNat, done := true, phase := .idle } :=
  if_pos (decide_eq_true (limb3_lt s.opa.isLt s.opb.isLt))

/-- The core step of phase MUL_THEN_DIV, whose check passes whatever the latches hold (42_divider.md R135). -/
theorem mulStepThenDiv_eq (s : State) :
    mulStepThenDiv s =
      { s with p := mul128 s.opa.toNat s.opb.toNat, dvd := mul128 s.opa.toNat s.opb.toNat, phase := .div } :=
  if_pos (decide_eq_true (limb3_lt s.opa.isLt s.opb.isLt))

end Sys2Proof.Machine

/-! SUPPORT. What a step can do, said once for a command word, for the sequencer and for the whole machine, and the parts of the
state that each of them keeps. -/

namespace Sys2Proof.Machine

/-- What the write of a word that decodes to `d` can make of a state (30_encoding.md R75, R76): the effects of 43_control.md R150
and R151, a rejection, or an acceptance. -/
inductive CommandEffect (s : State) : Decoded → State → Prop where
  | nop : CommandEffect s (.command .nop) s
  | clear : CommandEffect s (.command .clear) (clearErr (setDone false s))
  | rejected (d : Decoded) (e : ErrorCode) (hnop : d ≠ .command .nop) (hclear : d ≠ .command .clear)
      (he : d = .illegal ∧ e = .illegalCommand ∨ s.phase ≠ .idle ∧ e = .busyReject ∨
        (s.phase = .idle ∧ divisorD s = 0) ∧ e = .invalidDivisor) : CommandEffect s d (raise e (setDone false s))
  | mul (hidle : s.phase = .idle) : CommandEffect s (.command .mul) (mulAccept (setDone false s))
  | div (hidle : s.phase = .idle) (hd : divisorD s ≠ 0) : CommandEffect s (.command .div) (divAccept (setDone false s))
  | muldiv (hidle : s.phase = .idle) (hd : divisorD s ≠ 0) :
      CommandEffect s (.command .muldiv) (muldivAccept (setDone false s))

/-- A compute command is rejected, or accepted from IDLE with a divisor that is not 0 where it divides (30_encoding.md R75). -/
theorem dispatchCompute_effect {divides : Bool} {accept : State → State} {s : State} {d : Decoded}
    (hnop : d ≠ .command .nop) (hclear : d ≠ .command .clear)
    (haccept : s.phase = .idle → (divides = true → divisorD s ≠ 0) → CommandEffect s d (accept (setDone false s))) :
    CommandEffect s d (dispatchCompute divides accept s) := by
  rcases dispatchCompute_cases divides accept s with ⟨hbusy, e⟩ | ⟨hidle, _, hz, e⟩ | ⟨hidle, hd, e⟩ <;> rw [e]
  · exact .rejected d .busyReject hnop hclear (.inr (.inl ⟨hbusy, rfl⟩))
  · exact .rejected d .invalidDivisor hnop hclear (.inr (.inr ⟨⟨hidle, hz⟩, rfl⟩))
  · exact haccept hidle hd

/-- Every command answers a next state, by one of the effects of 30_encoding.md R75. -/
theorem exec_effect (i : Instr) (s : State) : ∃ t, exec i s = .next t ∧ CommandEffect s (.command i) t := by
  cases i with
  | nop => exact ⟨_, rfl, .nop⟩
  | clear => exact ⟨_, rfl, .clear⟩
  | mul => exact ⟨_, rfl, dispatchCompute_effect (by decide) (by decide) fun hidle _ => .mul hidle⟩
  | div => exact ⟨_, rfl, dispatchCompute_effect (by decide) (by decide) fun hidle hd => .div hidle (hd rfl)⟩
  | muldiv => exact ⟨_, rfl, dispatchCompute_effect (by decide) (by decide) fun hidle hd => .muldiv hidle (hd rfl)⟩

theorem cmdWrite_effect {w : Word} {s t : State} (h : cmdWrite w s = .next t) : CommandEffect s (decode w) t := by
  unfold cmdWrite at h
  split at h
  · rename_i i hw
    obtain ⟨u, hu, heff⟩ := exec_effect i s
    cases hu.symm.trans h
    rw [hw]
    exact heff
  · rename_i hw
    cases h
    rw [hw]
    exact .rejected .illegal .illegalCommand nofun nofun (.inl ⟨rfl, rfl⟩)

namespace CommandEffect

variable {s t : State} {d : Decoded}

/-- A command writes no register of the window but STATUS (10_state.md R24 to R27). -/
theorem keepsOperands (h : CommandEffect s d t) : SameOperands s t := by
  cases h with
  | rejected => simp
  | _ => exact ⟨rfl, rfl, rfl, rfl⟩

theorem keepsResults (h : CommandEffect s d t) : SameResults s t := by
  cases h with
  | rejected => simp
  | _ => exact ⟨rfl, rfl, rfl⟩

theorem keepsSurroundings (h : CommandEffect s d t) : SameSurroundings s t := by
  cases h with
  | rejected => simp
  | _ => exact ⟨rfl, rfl, rfl, rfl, rfl⟩

/-- Only an acceptance, which needs IDLE, writes the internal state (60_exceptions.md R164). -/
theorem keepsInternal (h : CommandEffect s d t) (hs : s.phase ≠ .idle ∨ d = .command .nop ∨ d = .command .clear) :
    SameInternal s t := by
  cases h with
  | nop => exact ⟨rfl, rfl, rfl, rfl, rfl, rfl, rfl, rfl⟩
  | clear => exact ⟨rfl, rfl, rfl, rfl, rfl, rfl, rfl, rfl⟩
  | rejected => simp
  | mul hidle | div hidle | muldiv hidle => exact absurd hidle (by simpa using hs)

/-- NOP has no effect (43_control.md R150). -/
theorem eq_of_nop (h : CommandEffect s (.command .nop) t) : t = s := by
  cases h with
  | nop => rfl
  | rejected _ _ hnop => exact absurd rfl hnop

/-- Every word but NOP's clears DONE (10_state.md R30). -/
theorem done_eq_false (h : CommandEffect s d t) (hd : d ≠ .command .nop) : t.done = false := by
  cases h with
  | nop => exact absurd rfl hd
  | rejected => exact raise_done _ _
  | _ => rfl

/-- No command sets DONE (10_state.md R30). -/
theorem done_of_done (h : CommandEffect s d t) (ht : t.done = true) : s.done = true := by
  by_cases hd : d = .command .nop
  · cases hd
    rw [← h.eq_of_nop]
    exact ht
  · exact absurd ((h.done_eq_false hd).symm.trans ht) nofun

/-- A held error stays, except at CLEAR (60_exceptions.md R163, R168). -/
theorem keepsHeldErr (h : CommandEffect s d t) (hd : d ≠ .command .clear) (he : s.err ≠ 0) : t.err = s.err := by
  cases h with
  | clear => exact absurd rfl hd
  | rejected => exact (raise_err _ _).trans (if_neg he)
  | _ => rfl

end CommandEffect

/-- The word 0 is the one that decodes to NOP (30_encoding.md R72, R74). -/
theorem decode_eq_nop_iff {w : Word} : decode w = .command .nop ↔ w = 0 := by
  constructor
  · intro h
    unfold decode at h
    split_ifs at h with hr ho <;> cases h
    have hhigh : w.toNat / 2 ^ 8 % 2 ^ 56 = 0 := by
      rw [← Nat.shiftRight_eq_div_pow]
      exact congrArg BitVec.toNat (not_not.mp hr)
    have hlow : w.toNat % 2 ^ 8 = 0 := congrArg BitVec.toNat ho
    have hlt := w.isLt
    exact BitVec.eq_of_toNat_eq (show w.toNat = 0 by omega)
  · rintro rfl
    rfl

/-- What a core step can make of a state, by the phase (10_state.md R36); the multiplier's check passes, so the multiply steps
have one form each. -/
inductive CoreEffect (s : State) : State → Prop where
  | idle (hp : s.phase = .idle) : CoreEffect s s
  | mulOnly (hp : s.phase = .mulOnly) :
      CoreEffect s { s with p := mul128 s.opa.toNat s.opb.toNat, done := true, phase := .idle }
  | mulThenDiv (hp : s.phase = .mulThenDiv) :
      CoreEffect s { s with p := mul128 s.opa.toNat s.opb.toNat, dvd := mul128 s.opa.toNat s.opb.toNat, phase := .div }
  | lastIteration (hp : s.phase = .div) (hk : s.cnt.toNat = 255) :
      CoreEffect s (divFinish (nextRem s) (nextQuo s) (iterated s))
  | iteration (hp : s.phase = .div) (hk : s.cnt.toNat < 255) : CoreEffect s (iterated s)

theorem coreStep_effect {s t : State} (h : coreStep s = .next t) : CoreEffect s t := by
  unfold coreStep at h
  split at h
  · cases h; exact .idle ‹_›
  · cases h; rw [mulStepOnly_eq]; exact .mulOnly ‹_›
  · cases h; rw [mulStepThenDiv_eq]; exact .mulThenDiv ‹_›
  · rcases divIteration_cases s with ⟨_, e⟩ | ⟨hk, e⟩ | ⟨hk, e⟩ <;> rw [e] at h <;> cases h
    · exact .lastIteration ‹_› hk
    · exact .iteration ‹_› hk

/-- The last iteration finishes, or its defensive check abandons the command (42_divider.md R137). -/
theorem divFinish_cases (r' : Nat) (q' : Limbs4) (s : State) :
    (s.dvr.toNat ≤ r' ∧ divFinish r' q' s = abandonCommand s) ∨
    (r' < s.dvr.toNat ∧ divFinish r' q' s = { s with q := q', rm := limbs2 r', done := true, phase := .idle }) := by
  by_cases h : s.dvr.toNat ≤ r'
  · exact .inl ⟨h, if_pos h⟩
  · exact .inr ⟨Nat.lt_of_not_le h, if_neg h⟩

@[simp] theorem divFinish_phase (r' : Nat) (q' : Limbs4) (s : State) : (divFinish r' q' s).phase = .idle := by
  rcases divFinish_cases r' q' s with ⟨_, e⟩ | ⟨_, e⟩ <;> rw [e]
  rfl

@[simp] theorem divFinish_p (r' : Nat) (q' : Limbs4) (s : State) : (divFinish r' q' s).p = s.p := by
  rcases divFinish_cases r' q' s with ⟨_, e⟩ | ⟨_, e⟩ <;> rw [e]
  exact raise_p _ _

/-- The end of a division sets DONE, or leaves it where the check fails (42_divider.md R137). -/
theorem divFinish_done (r' : Nat) (q' : Limbs4) (s : State) :
    (divFinish r' q' s).done = true ∨ (divFinish r' q' s).done = s.done := by
  rcases divFinish_cases r' q' s with ⟨_, e⟩ | ⟨_, e⟩ <;> rw [e]
  · exact .inr (raise_done _ _)
  · exact .inl rfl

theorem divFinish_keepsOperands (r' : Nat) (q' : Limbs4) (s : State) : SameOperands s (divFinish r' q' s) := by
  rcases divFinish_cases r' q' s with ⟨_, e⟩ | ⟨_, e⟩ <;> rw [e]
  · exact ⟨raise_a _ _, raise_b _ _, raise_dv _ _, raise_n _ _⟩
  · exact ⟨rfl, rfl, rfl, rfl⟩

namespace CoreEffect

variable {s t : State}

/-- The sequencer writes no operand register (10_state.md R27, R38). -/
theorem keepsOperands (h : CoreEffect s t) : SameOperands s t := by
  cases h with
  | lastIteration => exact divFinish_keepsOperands (nextRem s) (nextQuo s) (iterated s)
  | _ => exact ⟨rfl, rfl, rfl, rfl⟩

/-- P is written by the multiply steps only (10_state.md R24). -/
theorem phase_of_p_ne (h : CoreEffect s t) (hp : t.p ≠ s.p) : s.phase = .mulOnly ∨ s.phase = .mulThenDiv := by
  cases h with
  | idle | iteration => exact absurd rfl hp
  | mulOnly hm => exact .inl hm
  | mulThenDiv hm => exact .inr hm
  | lastIteration => exact absurd (divFinish_p (nextRem s) (nextQuo s) (iterated s)) hp

/-- Q and RM are written by the last division step only (10_state.md R25, R26). -/
theorem last_of_quotient_ne (h : CoreEffect s t) (hq : t.q ≠ s.q ∨ t.rm ≠ s.rm) : s.phase = .div ∧ s.cnt.toNat = 255 := by
  cases h with
  | lastIteration hd hk => exact ⟨hd, hk⟩
  | _ => exact absurd hq (by simp [iterated])

/-- The sequencer never clears DONE (10_state.md R30). -/
theorem done_of_done (h : CoreEffect s t) (hd : s.done = true) : t.done = true := by
  cases h with
  | mulOnly => rfl
  | lastIteration =>
    rcases divFinish_done (nextRem s) (nextQuo s) (iterated s) with e | e
    · exact e
    · exact e.trans hd
  | _ => exact hd

/-- The sequencer sets DONE only where it ends a command (10_state.md R30). -/
theorem completes_of_done (h : CoreEffect s t) (hd : s.done = false) (ht : t.done = true) :
    s.phase ≠ .idle ∧ t.phase = .idle := by
  cases h with
  | mulOnly hp => exact ⟨by simp [hp], rfl⟩
  | lastIteration hp => exact ⟨by simp [hp], divFinish_phase _ _ _⟩
  | _ => exact absurd (hd.symm.trans ht) (by decide)

end CoreEffect

/-- What a step can make of a state, by the agent that takes it (00_scope.md R15, 20_memory.md R50 to R55). -/
inductive StepEffect (s : State) : State → Prop where
  /-- The sequencer's turn. -/
  | core (rest : List Agent) (t : State) (hturn : CoreTurn s) (h : CoreEffect { s with schedule := rest } t) : StepEffect s t
  /-- A host step that reaches no register as a write: no access, a read, or an access that the core refuses or does not see. -/
  | port (rest : List Agent) (ops : List HostOp) (rs : List Response) (f : Bool) (hturn : HostTurn s) :
      StepEffect s { s with schedule := rest, program := ops, responses := rs, hostFault := f }
  /-- A host's write of an operand register. -/
  | operand (rest : List Agent) (ops : List HostOp) (r : Reg) (v : Word) (t : State)
      (hacc : NextAccess s (.write (s.config.windowBase + r.offset) 8 v) rest ops)
      (h : writeReg (answered s rest ops .ack) v r = some t) : StepEffect s t
  /-- A host's write of CMD. -/
  | command (rest : List Agent) (ops : List HostOp) (w : Word) (t : State)
      (hacc : NextAccess s (.write (s.config.windowBase + 0xA0) 8 w) rest ops)
      (h : CommandEffect (answered s rest ops .ack) (decode w) t) : StepEffect s t
  /-- The reset step. -/
  | reset (rest : List Agent) (hturn : ResetTurn s) : StepEffect s (resetCore { s with schedule := rest })

/-- A read at the host's turn touches the port's record only (20_memory.md R53). -/
theorem performAccess_read_effect {s t : State} {addr size : Nat} {rest : List Agent} {ops : List HostOp} (hturn : HostTurn s)
    (h : performAccess (.read addr size) { s with schedule := rest, program := ops } = .next t) : StepEffect s t := by
  rcases performAccess_cases (.read addr size) { s with schedule := rest, program := ops } with
    e | ⟨v, e⟩ | e | ⟨_, _, _, hacc, _⟩ | ⟨_, _, hacc, _⟩
  · cases e.symm.trans h; exact .port rest ops _ _ hturn
  · cases e.symm.trans h; exact .port rest ops _ _ hturn
  · cases e.symm.trans h; exact .port rest ops _ true hturn
  · cases hacc
  · cases hacc

theorem hostStep_effect {s t : State} {rest : List Agent} (hs : s.schedule = .host :: rest)
    (h : hostStep { s with schedule := rest } = .next t) : StepEffect s t := by
  have hturn : HostTurn s := by simp [hs]
  rcases hostStep_cases { s with schedule := rest } with ⟨_, e⟩ | ⟨acc, ops, hprog, e⟩ | ⟨_, prog, _, e⟩
  · cases e.symm.trans h
    exact .port rest s.program s.responses s.hostFault hturn
  · rw [e] at h
    rcases performAccess_cases acc { s with schedule := rest, program := ops } with
      e | ⟨v, e⟩ | e | ⟨r, v, u, rfl, hw, e⟩ | ⟨w, u, rfl, hc, e⟩ <;> cases e.symm.trans h
    · exact .port rest ops _ _ hturn
    · exact .port rest ops _ _ hturn
    · exact .port rest ops _ true hturn
    · exact .operand rest ops r v t ⟨hs, hprog⟩ hw
    · exact .command rest ops w t ⟨hs, hprog⟩ (cmdWrite_effect hc)
  · exact performAccess_read_effect hturn (e.symm.trans h)

theorem step_effect {s t : State} (h : step s = .next t) : StepEffect s t := by
  rcases step_cases s with ⟨hs, e⟩ | ⟨rest, hs, e⟩ | ⟨rest, hs, e⟩ | ⟨rest, hs, e⟩ <;> rw [e] at h
  · exact .core s.schedule t (.inr hs) (coreStep_effect h)
  · exact hostStep_effect hs h
  · exact .core rest t (.inl (by simp [hs])) (coreStep_effect h)
  · cases h
    exact .reset rest (by simp [hs])

/-- A write of CMD at the host's turn is `cmd_write`, once the access is answered (10_state.md R28, 20_memory.md R52). -/
theorem step_cmdWrite {s : State} {w : Word} {rest : List Agent} {ops : List HostOp}
    (h : NextAccess s (.write (s.config.windowBase + 0xA0) 8 w) rest ops) :
    step s = cmdWrite w (answered s rest ops .ack) := by
  obtain ⟨hs, hp⟩ := h
  have hoff : windowOffset s.config (s.config.windowBase + 0xA0) = some 0xA0 := windowOffset_eq_some.mpr ⟨rfl, by decide⟩
  have hreg : addressedReg 0xA0 8 = some .cmd := rfl
  simp only [step, hs, hostStep, hp, performAccess, hoff, portWrite, hreg]
  rfl

/-- An operand or result register reads the operands and results only. -/
theorem readReg_congr {s t : State} (ho : SameOperands s t) (hr : SameResults s t) {r : Reg} (h : r ≠ .status) :
    readReg t r = readReg s r := by
  obtain ⟨ha, hb, hdv, hn⟩ := ho
  obtain ⟨hp, hq, hrm⟩ := hr
  cases r with
  | status => exact absurd rfl h
  | _ => simp only [readReg, ha, hb, hdv, hn, hp, hq, hrm]

theorem readReg_congr_operand {s t : State} (ho : SameOperands s t) {r : Reg} (h : r.right = .rw) :
    readReg t r = readReg s r := by
  obtain ⟨ha, hb, hdv, hn⟩ := ho
  cases r with
  | a0 | a1 | b0 | b1 | dv0 | dv1 | n0 | n1 | n2 | n3 => simp only [readReg, ha, hb, hdv, hn]
  | _ => cases h

/-- After a write the register reads the value written, and every other register what it read before (20_memory.md R54):
one equation for each pair of registers. -/
theorem readReg_writeReg {s t : State} {v : Word} {r : Reg} (h : writeReg s v r = some t) (r' : Reg) :
    readReg t r' = if r' = r then some v else readReg s r' := by
  cases r <;> cases h <;> cases r' <;> rfl

end Sys2Proof.Machine

/-! SUPPORT. The invariants of 10_state.md R37 and 42_divider.md R140, and that every agent's step keeps them. -/

namespace Sys2Proof.Machine

/-- Before the first iteration no bit of the dividend has been divided (42_divider.md R140). -/
theorem dividedSoFar_of_cnt_zero {s : State} (h : s.cnt = 0) : dividedSoFar s = 0 := by
  have hlt := join4_lt s.dvd
  simp only [dividedSoFar, h]
  exact Nat.div_eq_of_lt hlt

/-- With cleared accumulators and counter, R140 holds of any dividend and divisor. -/
theorem divisionInv_of_cleared {s : State} (hc : s.cnt = 0) (hr : s.racc = 0) (hq : s.qacc = Limbs4.zero) : DivisionInv s := by
  intro _
  rw [dividedSoFar_of_cnt_zero hc, hr, hq, Nat.zero_mod, Nat.zero_div, Nat.zero_mul]
  exact ⟨rfl, rfl⟩

/-- The invariants speak of the internal state, DONE and ERR only. -/
theorem coreInv_congr {s t : State} (h : CoreInv s) (hi : SameInternal s t) (hdone : t.done = true → s.done = true)
    (herr : ErrInv t) : CoreInv t := by
  obtain ⟨⟨hdiv, hmul, hmd, hd, hr⟩, hpend, hdi, _⟩ := h
  obtain ⟨ephase, _, _, edvr, edvd, eracc, eqacc, ecnt⟩ := hi
  refine ⟨⟨?_, ?_, ?_, ?_, ?_⟩, ?_, ?_, herr⟩
  · rwa [ephase, ecnt, edvr, eracc]
  · rwa [ephase, ecnt]
  · rwa [ephase, edvr]
  · rw [ephase]; exact fun ht => hd (hdone ht)
  · rwa [eracc]
  · unfold PendingDivideInv; rwa [ephase, eracc, eqacc]
  · unfold DivisionInv dividedSoFar; rwa [ephase, eracc, eqacc, edvr, edvd, ecnt]

/-- In IDLE the invariants ask for a bounded accumulator and a legal ERR only. -/
theorem coreInv_of_idle {s : State} (hp : s.phase = .idle) (hr : s.racc.toNat < 2 ^ 128) (he : ErrInv s) : CoreInv s := by
  refine ⟨⟨?_, ?_, ?_, fun _ => hp, hr⟩, ?_, ?_, he⟩ <;> intro h <;> simp [hp] at h

/-- An error of a command leaves ERR legal: codes 1, 4 and 5 only (60_exceptions.md R161). -/
theorem errInv_raise {e : ErrorCode} {s : State} (h : ErrInv s)
    (he : e = .illegalCommand ∨ e = .busyReject ∨ e = .invalidDivisor) : ErrInv (raise e s) := by
  unfold ErrInv
  rw [raise_err]
  split
  · rcases he with rfl | rfl | rfl <;> decide
  · exact h

/-- The latch holds the whole divisor (42_divider.md R133). -/
theorem latchedDivisor_toNat (s : State) : (BitVec.ofNat 128 (divisorD s)).toNat = divisorD s := by
  rw [BitVec.toNat_ofNat]
  exact Nat.mod_eq_of_lt (join2_lt s.dv)

theorem latchedDivisor_ne_zero {s : State} (h : divisorD s ≠ 0) : BitVec.ofNat 128 (divisorD s) ≠ 0 := by
  intro hz
  exact h ((latchedDivisor_toNat s).symm.trans (congrArg BitVec.toNat hz))

/-- A command keeps the invariants: rejected it leaves the internal state, accepted it clears what the division needs. -/
theorem CommandEffect.keepsCoreInv {s t : State} {d : Decoded} (h : CommandEffect s d t) (hinv : CoreInv s) : CoreInv t := by
  obtain ⟨⟨_, _, _, _, hracc⟩, _, _, herr⟩ := id hinv
  cases h with
  | nop => exact hinv
  | clear => exact coreInv_congr hinv ⟨rfl, rfl, rfl, rfl, rfl, rfl, rfl, rfl⟩ nofun (.inl rfl)
  | rejected d e _ _ he =>
    have hcode : ErrInv (raise e (setDone false s)) :=
      errInv_raise (s := setDone false s) herr (he.imp And.right (.imp And.right And.right))
    exact coreInv_congr hinv (by simp) (by simp) hcode
  | mul => exact ⟨⟨nofun, fun _ => rfl, nofun, nofun, hracc⟩, nofun, nofun, herr⟩
  | div _ hd =>
    have hne := latchedDivisor_ne_zero hd
    have hpos : 0 < (BitVec.ofNat 128 (divisorD s)).toNat := by rw [latchedDivisor_toNat]; omega
    exact ⟨⟨fun _ => ⟨Nat.zero_le 255, hne, hpos⟩, nofun, nofun, nofun, Nat.two_pow_pos 128⟩, nofun,
      divisionInv_of_cleared rfl rfl rfl, herr⟩
  | muldiv _ hd =>
    exact ⟨⟨nofun, fun _ => rfl, fun _ => latchedDivisor_ne_zero hd, nofun, Nat.two_pow_pos 128⟩, fun _ => ⟨rfl, rfl⟩,
      nofun, herr⟩

/-- The weight of the dividend's bits that are left halves with every iteration (42_divider.md R132). -/
theorem two_pow_remaining {k : Nat} (hk : k ≤ 255) : 2 ^ (256 - k) = 2 * 2 ^ (255 - k) := by
  rw [← pow_succ']
  congr 1
  omega

/-- One more bit of the dividend: `n_(k+1) = 2 n_k + bit` (42_divider.md R140). -/
theorem dividend_succ (n : Nat) {k : Nat} (hk : k ≤ 255) :
    n / 2 ^ (256 - (k + 1)) = 2 * (n / 2 ^ (256 - k)) + n / 2 ^ (255 - k) % 2 := by
  rw [two_pow_remaining hk, Nat.mul_comm 2 (2 ^ (255 - k)), ← Nat.div_div_eq_div_mul, Nat.succ_sub_succ 255 k]
  omega

/-- One step of long division in base 2: shift in `b`, then compare and subtract (42_divider.md R136). -/
theorem longDivision_step (n d : Nat) {b : Nat} (hb : b < 2) (hd : 0 < d) :
    (2 * n + b) % d = (if d ≤ 2 * (n % d) + b then 2 * (n % d) + b - d else 2 * (n % d) + b) ∧
    (2 * n + b) / d = 2 * (n / d) + (if d ≤ 2 * (n % d) + b then 1 else 0) := by
  have hn : 2 * n + b = 2 * (n % d) + b + d * (2 * (n / d)) := by
    have := Nat.mod_add_div n d
    rw [Nat.mul_left_comm]
    omega
  have hr := Nat.mod_lt n hd
  rw [hn, Nat.add_mul_mod_self_left, Nat.add_mul_div_left _ _ hd]
  split
  · rename_i hle
    rw [Nat.mod_eq_sub_mod hle, Nat.mod_eq_of_lt (by omega), Nat.div_eq_sub_div hd hle, Nat.div_eq_of_lt (by omega)]
    omega
  · rw [Nat.mod_eq_of_lt (by omega), Nat.div_eq_of_lt (by omega)]
    omega

/-- What the invariants say of a division that is under way (10_state.md R37, 42_divider.md R140). -/
structure Dividing (s : State) : Prop where
  cnt_le : s.cnt.toNat ≤ 255
  dvr_pos : 0 < s.dvr.toNat
  racc_eq : s.racc.toNat = dividedSoFar s % s.dvr.toNat
  qacc_eq : join4 s.qacc = dividedSoFar s / s.dvr.toNat * 2 ^ (256 - s.cnt.toNat)

theorem dividing_of_coreInv {s : State} (h : CoreInv s) (hp : s.phase = .div) : Dividing s := by
  obtain ⟨⟨hdiv, _⟩, _, hdi, _⟩ := h
  obtain ⟨hcnt, _, hlt⟩ := hdiv hp
  obtain ⟨hr, hq⟩ := hdi hp
  exact ⟨hcnt, Nat.zero_lt_of_lt hlt, hr, hq⟩

namespace Dividing

variable {s : State}

/-- The dividend's next bit comes in below the doubled accumulator (42_divider.md R136). -/
theorem shiftedIn_eq (h : Dividing s) :
    shiftedIn s = 2 * (dividedSoFar s % s.dvr.toNat) + join4 s.dvd / 2 ^ (255 - s.cnt.toNat) % 2 := by
  rw [shiftedIn, h.racc_eq, bitAt_iteration s.dvd h.cnt_le]

/-- The remainder after an iteration is the longer dividend's (42_divider.md R140). -/
theorem nextRem_eq (h : Dividing s) : nextRem s = join4 s.dvd / 2 ^ (256 - (s.cnt.toNat + 1)) % s.dvr.toNat := by
  rw [dividend_succ _ h.cnt_le, nextRem, h.shiftedIn_eq]
  exact (longDivision_step (dividedSoFar s) s.dvr.toNat (Nat.mod_lt _ Nat.two_pos) h.dvr_pos).1.symm

theorem nextRem_lt (h : Dividing s) : nextRem s < s.dvr.toNat := by
  rw [h.nextRem_eq]
  exact Nat.mod_lt _ h.dvr_pos

/-- The quotient's bits from iteration `k` on are still clear (42_divider.md R140). -/
theorem quotientBit_clear (h : Dividing s) :
    bitAt (limbOf s.qacc (iterLimb s.cnt.toNat)) (iterPos s.cnt.toNat) = 0 := by
  have hk := h.cnt_le
  rw [bitAt_iteration s.qacc hk, h.qacc_eq, two_pow_remaining hk, ← Nat.mul_assoc, Nat.mul_div_cancel _ (Nat.two_pow_pos _),
    Nat.mul_mod_left]

/-- An iteration adds its quotient bit at the bit's weight (42_divider.md R132, R136). -/
theorem join4_nextQuo (h : Dividing s) :
    join4 (nextQuo s) = join4 s.qacc + (if s.dvr.toNat ≤ shiftedIn s then 1 else 0) * 2 ^ (255 - s.cnt.toNat) := by
  unfold nextQuo
  split
  · rw [join4_setBit_iteration s.qacc h.cnt_le h.quotientBit_clear, Nat.one_mul]
  · rw [Nat.zero_mul, Nat.add_zero]

/-- The quotient after an iteration is the longer dividend's (42_divider.md R140). -/
theorem nextQuo_eq (h : Dividing s) :
    join4 (nextQuo s) =
      join4 s.dvd / 2 ^ (256 - (s.cnt.toNat + 1)) / s.dvr.toNat * 2 ^ (256 - (s.cnt.toNat + 1)) := by
  have hquo := (longDivision_step (dividedSoFar s) s.dvr.toNat (b := join4 s.dvd / 2 ^ (255 - s.cnt.toNat) % 2)
    (Nat.mod_lt _ Nat.two_pos) h.dvr_pos).2
  rw [dividend_succ _ h.cnt_le, ← dividedSoFar, hquo, ← h.shiftedIn_eq, h.join4_nextQuo, h.qacc_eq,
    two_pow_remaining h.cnt_le, Nat.succ_sub_succ 255]
  ring

/-- The accumulator holds the remainder after an iteration, its free value not needed (42_divider.md R139). -/
theorem iterated_racc (h : Dividing s) : (iterated s).racc.toNat = nextRem s :=
  raccOf_toNat (lt_trans h.nextRem_lt (lt_trans s.dvr.isLt (by decide)))

theorem nextRem_lt_two_pow (h : Dividing s) : nextRem s < 2 ^ 128 := lt_trans h.nextRem_lt s.dvr.isLt

theorem iterated_cnt (h : Dividing s) : (iterated s).cnt.toNat = s.cnt.toNat + 1 := by
  have hk := h.cnt_le
  change (BitVec.ofNat 9 (s.cnt.toNat + 1)).toNat = s.cnt.toNat + 1
  rw [BitVec.toNat_ofNat, Nat.mod_eq_of_lt (by omega)]

/-- R140 after an iteration (42_divider.md R140). -/
theorem iterated_divisionInv (h : Dividing s) : DivisionInv (iterated s) := by
  intro _
  rw [h.iterated_racc, dividedSoFar, h.iterated_cnt]
  exact ⟨h.nextRem_eq, h.nextQuo_eq⟩

/-- The last iteration's defensive check passes (42_divider.md R137, R139). -/
theorem divFinish_eq (h : Dividing s) :
    divFinish (nextRem s) (nextQuo s) (iterated s) =
      { iterated s with q := nextQuo s, rm := limbs2 (nextRem s), done := true, phase := .idle } :=
  if_neg (Nat.not_le_of_lt h.nextRem_lt)

end Dividing

/-- A core step keeps the invariants: the multiply step of MULDIV hands the division a cleared start, and an iteration is one step
of long division (10_state.md R37, 42_divider.md R140). -/
theorem CoreEffect.keepsCoreInv {s t : State} (h : CoreEffect s t) (hinv : CoreInv s) : CoreInv t := by
  obtain ⟨⟨_, hmul, hmd, hdone, hracc⟩, hpend, _, herr⟩ := id hinv
  cases h with
  | idle => exact hinv
  | mulOnly => exact coreInv_of_idle rfl hracc herr
  | mulThenDiv hp =>
    obtain ⟨hr, hq⟩ := hpend hp
    have hcnt := hmul (.inr hp)
    have hne := hmd hp
    have hstart : s.cnt.toNat ≤ 255 ∧ s.dvr ≠ 0 ∧ s.racc.toNat < s.dvr.toNat := by
      refine ⟨by rw [hcnt]; decide, hne, ?_⟩
      rw [hr]
      exact Nat.pos_of_ne_zero fun hz => hne (BitVec.eq_of_toNat_eq hz)
    exact ⟨⟨fun _ => hstart, nofun, nofun, fun hd => absurd (hp.symm.trans (hdone hd)) nofun, hracc⟩, nofun,
      divisionInv_of_cleared hcnt hr hq, herr⟩
  | lastIteration hp =>
    have hdiv := dividing_of_coreInv hinv hp
    rw [hdiv.divFinish_eq]
    exact coreInv_of_idle rfl (hdiv.iterated_racc.trans_lt hdiv.nextRem_lt_two_pow) herr
  | iteration hp hk =>
    have hdiv := dividing_of_coreInv hinv hp
    have hbounds : (iterated s).cnt.toNat ≤ 255 ∧ s.dvr ≠ 0 ∧ (iterated s).racc.toNat < s.dvr.toNat :=
      ⟨hdiv.iterated_cnt.trans_le hk, fun hz => hdiv.dvr_pos.ne' (congrArg BitVec.toNat hz),
        hdiv.iterated_racc.trans_lt hdiv.nextRem_lt⟩
    have hphase : (iterated s).phase = .div := hp
    exact ⟨⟨fun _ => hbounds, by simp [hphase], by simp [hphase], fun hd => absurd (hp.symm.trans (hdone hd)) nofun,
      hdiv.iterated_racc.trans_lt hdiv.nextRem_lt_two_pow⟩, by simp [PendingDivideInv, hphase],
      hdiv.iterated_divisionInv, herr⟩

/-- The reset state meets the invariants, whatever is loaded beside it (10_state.md R37, 70_reset_and_hazards.md R180). -/
theorem coreInv_resetCore (s : State) : CoreInv (resetCore s) :=
  coreInv_of_idle rfl (Nat.two_pow_pos 128) (.inl rfl)

theorem StepEffect.keepsCoreInv {s t : State} (h : StepEffect s t) (hinv : CoreInv s) : CoreInv t := by
  cases h with
  | core _ _ _ h => exact h.keepsCoreInv hinv
  | port => exact hinv
  | operand _ _ r _ _ _ hw =>
    rw [writeReg_some hw]
    exact hinv
  | command _ _ _ _ _ h => exact h.keepsCoreInv hinv
  | reset => exact coreInv_resetCore _

/-- Settles O34, by the agent that takes the step; the division's part is `Dividing.iterated_divisionInv`. -/
theorem everyStepKeepsTheInvariants : Obligations.EveryStepKeepsTheInvariants := by
  unfold Obligations.EveryStepKeepsTheInvariants
  exact fun s t hinv h => (step_effect h).keepsCoreInv hinv

/-- Settles O35: the reset state is a state that a reset step leaves, and what is loaded is none of the core's. -/
theorem resetMeetsTheInvariants : Obligations.ResetMeetsTheInvariants := by
  unfold Obligations.ResetMeetsTheInvariants
  exact ⟨coreInv_resetCore State.reset, fun c prog sched => coreInv_resetCore (loaded c prog sched)⟩

/-- The invariants hold from reset on (10_state.md R37). -/
theorem coreInv_of_reachable {s : State} (h : Reachable s) : CoreInv s := by
  induction h with
  | start c prog sched => exact coreInv_resetCore (loaded c prog sched)
  | next _ _ _ hstep ih => exact (step_effect hstep).keepsCoreInv ih

/-- An access answers a next state, a bus error included (20_memory.md R55). -/
theorem performAccess_next (acc : Access) (s : State) : ∃ t, performAccess acc s = .next t := by
  rcases performAccess_cases acc s with e | ⟨v, e⟩ | e | ⟨r, v, u, _, _, e⟩ | ⟨w, u, _, _, e⟩ <;> exact ⟨_, e⟩

theorem hostStep_next (s : State) : ∃ t, hostStep s = .next t := by
  rcases hostStep_cases s with ⟨_, e⟩ | ⟨acc, ops, _, e⟩ | ⟨_, prog, _, e⟩
  · exact ⟨s, e⟩
  · rw [e]; exact performAccess_next _ _
  · rw [e]; exact performAccess_next _ _

/-- A core step stops only where a division has a counter above 255, which the invariants exclude (10_state.md R37, log 8). -/
theorem coreStep_next {s : State} (hinv : CoreInv s) : ∃ t, coreStep s = .next t := by
  cases hp : s.phase with
  | idle => exact ⟨s, by simp only [coreStep, hp]⟩
  | mulOnly => exact ⟨mulStepOnly s, by simp only [coreStep, hp]⟩
  | mulThenDiv => exact ⟨mulStepThenDiv s, by simp only [coreStep, hp]⟩
  | div =>
    have hk := (dividing_of_coreInv hinv hp).cnt_le
    simp only [coreStep, hp]
    rcases divIteration_cases s with ⟨hout, _⟩ | ⟨_, e⟩ | ⟨_, e⟩
    · omega
    · exact ⟨_, e⟩
    · exact ⟨_, e⟩

/-- Settles O38: the host's and the reset's steps never stop, and the sequencer's counter is in range. -/
theorem reachableStepsNeverStop : Obligations.ReachableStepsNeverStop := by
  unfold Obligations.ReachableStepsNeverStop
  intro s hinv
  rcases step_cases s with ⟨_, e⟩ | ⟨rest, _, e⟩ | ⟨rest, _, e⟩ | ⟨rest, _, e⟩ <;> rw [e]
  · exact coreStep_next hinv
  · exact hostStep_next _
  · exact coreStep_next (s := { s with schedule := rest }) hinv
  · exact ⟨_, rfl⟩

end Sys2Proof.Machine

/-! SUPPORT. The statements about the registers, STATUS and the turns (10_state.md R20 to R38, 70_reset_and_hazards.md R180). -/

namespace Sys2Proof.Machine

/-- STATUS as a number (10_state.md R29, R34). -/
theorem statusWord_toNat (s : State) :
    (statusWord s).toNat = (busy s).toNat + 2 * s.done.toNat + 16 * s.err.toNat := by
  have hdone : s.done.toNat < 2 ^ 1 := Bool.toNat_lt s.done
  have hbusy : (busy s).toNat < 2 ^ 1 := Bool.toNat_lt (busy s)
  simp only [statusWord, BitVec.toNat_append, BitVec.toNat_ofBool]
  rw [← Nat.shiftLeft_add_eq_or_of_lt hbusy, ← Nat.shiftLeft_add_eq_or_of_lt hdone]
  simp only [BitVec.ofNat_eq_ofNat, BitVec.toNat_ofNat, Nat.zero_mod, Nat.shiftLeft_eq, Nat.zero_mul, Nat.zero_or,
    Nat.or_zero]
  omega

/-- Bit 1 of STATUS is DONE (10_state.md R29). -/
theorem statusWord_done (s : State) : (statusWord s).getLsbD 1 = s.done := by
  simp only [statusWord, BitVec.getLsbD_append]
  cases s.done <;> rfl

/-- A field of a register value, from the value's number (00_scope.md R8). -/
theorem extractLsb'_eq_of_toNat {x : Word} {low len : Nat} {v : BitVec len} (h : x.toNat / 2 ^ low % 2 ^ len = v.toNat) :
    x.extractLsb' low len = v := by
  apply BitVec.eq_of_toNat_eq
  rw [BitVec.extractLsb'_toNat, Nat.shiftRight_eq_div_pow, h]

/-- Settles O49: the fields of STATUS, read off its number. -/
theorem statusWordLayout : Obligations.StatusWordLayout := by
  unfold Obligations.StatusWordLayout
  intro s
  have hnum := statusWord_toNat s
  have hdone := Bool.toNat_lt s.done
  have hbusy := Bool.toNat_lt (busy s)
  have herr := s.err.isLt
  refine ⟨by rw [statusWord_busy, busy_iff], statusWord_done s, ?_, ?_, ?_, ?_⟩
  · exact extractLsb'_eq_of_toNat (by rw [BitVec.toNat_zero]; omega)
  · exact extractLsb'_eq_of_toNat (by omega)
  · exact extractLsb'_eq_of_toNat (by rw [BitVec.toNat_zero]; omega)
  · rw [hnum]
    by_cases hp : s.phase = .idle
    · rw [(busy_eq_false s).mpr hp, if_pos hp]
      cases s.done <;> rfl
    · rw [(busy_iff s).mpr hp, if_neg hp]
      cases s.done <;> rfl

/-- Settles O36: the invariants of every reachable state, with DONE read from STATUS. -/
theorem reachableStatesMeetR37 : Obligations.ReachableStatesMeetR37 := by
  unfold Obligations.ReachableStatesMeetR37
  intro s hs
  rw [statusWord_done]
  exact (coreInv_of_reachable hs).1

/-- Settles O25: the frame of each effect a command can have. -/
theorem commandFrame : Obligations.CommandFrame := by
  unfold Obligations.CommandFrame
  intro i s
  obtain ⟨t, hexec, heff⟩ := exec_effect i s
  have hcmd {j : Instr} (h : i = j) : Decoded.command i = .command j := congrArg Decoded.command h
  have hne {j : Instr} (h : i ≠ j) : Decoded.command i ≠ .command j := fun e => h (Decoded.command.inj e)
  refine ⟨t, hexec, fun r => readReg_congr heff.keepsOperands heff.keepsResults, heff.keepsOperands, heff.keepsResults,
    heff.keepsSurroundings, fun h => heff.keepsInternal (h.imp_right (Or.imp hcmd hcmd)), fun h => heff.done_eq_false (hne h),
    ?_, fun h => heff.keepsHeldErr (hne h)⟩
  rintro rfl
  rw [heff.eq_of_nop]
  exact ⟨rfl, rfl⟩

/-- Every 64-bit word of the window up to STATUS is a register (10_state.md R20). -/
theorem exists_reg_of_index : ∀ j ≤ 21, ∃ r : Reg, r.offset = 8 * j := by
  have h : ∀ j ≤ 21, ∃ r ∈ Reg.all, r.offset = 8 * j := by decide
  exact fun j hj => (h j hj).imp fun _ hr => hr.2

/-- Settles O48: `regAt` inverts the offsets, which are the multiples of 8 up to STATUS's. -/
theorem registerMapIsOneToOne : Obligations.RegisterMapIsOneToOne := by
  unfold Obligations.RegisterMapIsOneToOne
  refine ⟨fun off r => regAt_eq_some, fun off => ⟨?_, ?_⟩, fun r r' h => ?_, by decide⟩
  · rintro ⟨r, rfl⟩
    cases r <;> decide
  · rintro ⟨hmod, hle⟩
    obtain ⟨r, hr⟩ := exists_reg_of_index (off / 8) (by omega)
    exact ⟨r, by omega⟩
  · exact Option.some.inj ((regAt_eq_some.mpr h).symm.trans (regAt_eq_some.mpr rfl))

/-- Settles O50: of the effects of a step only a write of an operand register, or a reset, reaches one. -/
theorem operandRegistersChangeByHostWritesOnly : Obligations.OperandRegistersChangeByHostWritesOnly := by
  unfold Obligations.OperandRegistersChangeByHostWritesOnly
  intro s t r hr h hne
  cases step_effect h with
  | core rest _ _ h => exact absurd (readReg_congr_operand h.keepsOperands hr) hne
  | port => exact absurd (readReg_congr_operand ⟨rfl, rfl, rfl, rfl⟩ hr) hne
  | operand rest ops r' v _ hacc hw =>
    have hread := readReg_writeReg hw r
    by_cases hrr : r = r'
    · subst hrr
      exact .inr ⟨v, rest, ops, hacc, hread.trans (if_pos rfl)⟩
    · rw [if_neg hrr] at hread
      exact absurd (hread.trans (readReg_congr_operand ⟨rfl, rfl, rfl, rfl⟩ hr)) hne
  | command rest ops w _ _ h => exact absurd (readReg_congr_operand h.keepsOperands hr) hne
  | reset _ hturn => exact .inl hturn

/-- A host step leaves P, Q and RM (10_state.md R24 to R26). -/
theorem StepEffect.sameResults_or_core {s t : State} (h : StepEffect s t) (hr : ¬ ResetTurn s) :
    SameResults s t ∨ ∃ rest, CoreTurn s ∧ CoreEffect { s with schedule := rest } t := by
  cases h with
  | core rest _ hturn h => exact .inr ⟨rest, hturn, h⟩
  | port => exact .inl ⟨rfl, rfl, rfl⟩
  | operand _ _ _ _ _ _ hw =>
    rw [writeReg_some hw]
    exact .inl ⟨rfl, rfl, rfl⟩
  | command _ _ _ _ _ h => exact .inl h.keepsResults
  | reset _ hturn => exact absurd hturn hr

/-- Settles O51: results are written by the core steps that 10_state.md R24 to R26 name. -/
theorem resultRegistersChangeAtCompletionOnly : Obligations.ResultRegistersChangeAtCompletionOnly := by
  unfold Obligations.ResultRegistersChangeAtCompletionOnly
  intro s t h hr
  rcases (step_effect h).sameResults_or_core hr with ⟨hp, hq, hrm⟩ | ⟨rest, hturn, hcore⟩
  · exact ⟨fun hne => absurd hp hne, fun hne => absurd hne (by simp [hq, hrm])⟩
  · exact ⟨fun hne => ⟨hturn, hcore.phase_of_p_ne hne⟩, fun hne => ⟨hturn, hcore.last_of_quotient_ne hne⟩⟩

/-- A CMD write of another word than NOP's clears DONE (10_state.md R30, 30_encoding.md R75). -/
theorem step_cmdWrite_done {s t : State} {w : Word} {rest : List Agent} {ops : List HostOp}
    (hacc : NextAccess s (.write (s.config.windowBase + 0xA0) 8 w) rest ops) (hw : w ≠ 0) (h : step s = .next t) :
    t.done = false := by
  rw [step_cmdWrite hacc] at h
  exact (cmdWrite_effect h).done_eq_false (mt decode_eq_nop_iff.mp hw)

/-- Settles O53: the sequencer sets DONE where it ends a command; a CMD write of a word other than NOP's, or a
reset, clears it. -/
theorem doneChangesOnlyAsSpecified : Obligations.DoneChangesOnlyAsSpecified := by
  unfold Obligations.DoneChangesOnlyAsSpecified
  intro s t h
  refine ⟨fun hs ht => ?_, fun hs ht => ?_, fun w rest ops hacc hw => step_cmdWrite_done hacc hw h⟩
  · cases step_effect h with
    | core _ _ hturn h => exact ⟨hturn, h.completes_of_done hs ht⟩
    | port => exact absurd (hs.symm.trans ht) nofun
    | operand _ _ _ _ _ _ hw =>
      rw [writeReg_some hw] at ht
      exact absurd (hs.symm.trans ht) nofun
    | command _ _ _ _ _ h => exact absurd (hs.symm.trans (h.done_of_done ht)) nofun
    | reset => cases ht
  · cases step_effect h with
    | core _ _ _ h => exact absurd ((h.done_of_done hs).symm.trans ht) nofun
    | port => exact absurd (hs.symm.trans ht) nofun
    | operand _ _ _ _ _ _ hw =>
      rw [writeReg_some hw] at ht
      exact absurd (hs.symm.trans ht) nofun
    | command rest ops w _ hacc h =>
      refine .inr ⟨w, rest, ops, hacc, ?_⟩
      rintro rfl
      have hnext : t = answered s rest ops .ack := h.eq_of_nop
      have hdone : t.done = s.done := by rw [hnext]
      exact absurd (hs.symm.trans (hdone.symm.trans ht)) nofun
    | reset _ hturn => exact .inl hturn

/-- Settles O1: the CMD write is `cmd_write`, which runs the decoded command. -/
theorem stepRunsDecodedCommand : Obligations.StepRunsDecodedCommand := by
  unfold Obligations.StepRunsDecodedCommand
  intro s rest ops w i hacc hw
  rw [step_cmdWrite hacc, cmdWrite, hw]

/-- Settles O26, by the definition of a turn. -/
theorem coreTurnTakesOneCoreStep : Obligations.CoreTurnTakesOneCoreStep := by
  unfold Obligations.CoreTurnTakesOneCoreStep
  refine ⟨fun s rest h => ?_, fun s h => ?_, fun s h => ?_⟩
  · simp only [step, h]
  · simp only [step, h]
  · simp only [coreStep, h]

/-- Settles O56: the reset values of 70_reset_and_hazards.md R180. -/
theorem resetStateReadsZero : Obligations.ResetStateReadsZero := by
  unfold Obligations.ResetStateReadsZero
  refine ⟨fun r hr => ?_, rfl, rfl, rfl, rfl, rfl, rfl, rfl, rfl⟩
  cases r with
  | cmd => exact absurd rfl hr
  | _ => rfl

end Sys2Proof.Machine

/-! SUPPORT. Bytes and command words (20_memory.md R57, 30_encoding.md R70 to R78): byte lanes hold a word, and a word is decoded to
a command exactly where it is the command's encoding. -/

namespace Sys2Proof

theorem laneOf_eq_ofNat (w : Word) (k : Nat) : laneOf w k = BitVec.ofNat 8 (w.toNat / 2 ^ (8 * k)) := by
  rw [laneOf, BitVec.extractLsb', Nat.shiftRight_eq_div_pow]

/-- A lane's bit is the word's bit at the lane's offset (20_memory.md R57). -/
theorem laneOf_getLsbD (w : Word) (k : Nat) {j : Nat} (hj : j ≤ 7) : (laneOf w k).getLsbD j = w.getLsbD (8 * k + j) := by
  rw [laneOf, BitVec.getLsbD_extractLsb', decide_eq_true (Nat.lt_succ_of_le hj), Bool.true_and]

@[simp] theorem lanesOf_length (w : Word) : (lanesOf w).length = 8 := rfl

/-- The first `n` bytes of a number, least significant first, hold its low `8 n` bits: by peeling off the lowest byte. -/
theorem natOfLanes_bytes (n v : Nat) :
    natOfLanes ((List.range n).map fun k => BitVec.ofNat 8 (v / 2 ^ (8 * k))) = v % 2 ^ (8 * n) := by
  induction n generalizing v with
  | zero => rw [Nat.mul_zero, Nat.pow_zero, Nat.mod_one]; rfl
  | succ n ih =>
    have hshift (k : Nat) : v / 2 ^ (8 * k.succ) = v / 2 ^ 8 / 2 ^ (8 * k) := by
      rw [Nat.div_div_eq_div_mul, ← pow_add, Nat.mul_succ, Nat.add_comm]
    have htail : ((List.range n).map Nat.succ).map (fun k => BitVec.ofNat 8 (v / 2 ^ (8 * k))) =
        (List.range n).map fun k => BitVec.ofNat 8 (v / 2 ^ 8 / 2 ^ (8 * k)) := by
      simp only [List.map_map, Function.comp_def, hshift]
    rw [List.range_succ_eq_map, List.map_cons, htail, natOfLanes, ih, Nat.mul_zero, Nat.pow_zero, Nat.div_one,
      BitVec.toNat_ofNat, Nat.mul_succ, Nat.add_comm (8 * n), pow_add, Nat.mod_mul]

/-- The eight lanes of a word hold the word (20_memory.md R57). -/
theorem natOfLanes_lanesOf (w : Word) : natOfLanes (lanesOf w) = w.toNat := by
  have hlanes : lanesOf w = (List.range 8).map fun k => BitVec.ofNat 8 (w.toNat / 2 ^ (8 * k)) :=
    List.map_congr_left fun k _ => laneOf_eq_ofNat w k
  rw [hlanes, natOfLanes_bytes]
  exact Nat.mod_eq_of_lt w.isLt

theorem natOfLanes_lt (bs : List Byte) : natOfLanes bs < 2 ^ (8 * bs.length) := by
  induction bs with
  | nil => exact Nat.one_pos
  | cons b bs ih =>
    have hb := b.isLt
    rw [natOfLanes, List.length_cons, Nat.mul_succ, pow_add]
    omega

/-- Byte strings of one length are told apart by the number they hold. -/
theorem natOfLanes_inj {bs cs : List Byte} (hlen : bs.length = cs.length) (h : natOfLanes bs = natOfLanes cs) : bs = cs := by
  induction bs generalizing cs with
  | nil => exact (List.length_eq_zero_iff.mp hlen.symm).symm
  | cons b bs ih =>
    cases cs with
    | nil => cases hlen
    | cons c cs =>
      have hb := b.isLt
      have hc := c.isLt
      rw [natOfLanes, natOfLanes] at h
      rw [BitVec.eq_of_toNat_eq (show b.toNat = c.toNat by omega), ih (Nat.succ.inj hlen) (by omega)]

/-- Eight bytes are the lanes of a word exactly when the number they hold, as a word, is that word (20_memory.md R57). -/
theorem ofNat_natOfLanes_eq_iff {bs : List Byte} (hlen : bs.length = 8) {w : Word} :
    BitVec.ofNat 64 (natOfLanes bs) = w ↔ bs = lanesOf w := by
  constructor
  · rintro rfl
    have hlt := natOfLanes_lt bs
    rw [hlen] at hlt
    refine natOfLanes_inj hlen ?_
    rw [natOfLanes_lanesOf, BitVec.toNat_ofNat, Nat.mod_eq_of_lt hlt]
  · rintro rfl
    rw [natOfLanes_lanesOf, BitVec.ofNat_toNat, BitVec.setWidth_eq]

/-- Settles O7: the lanes' bits, and the word they hold. -/
theorem byteLanesHoldTheWord : Obligations.ByteLanesHoldTheWord := by
  unfold Obligations.ByteLanesHoldTheWord
  exact fun w => ⟨fun k j _ hj => laneOf_getLsbD w k hj, lanesOf_length w, natOfLanes_lanesOf w⟩

/-- A command word is its two fields (30_encoding.md R71). -/
theorem rsvdField_append_opcodeField (w : Word) : rsvdField w ++ opcodeField w = w := by
  have hfields : rsvdField w ++ opcodeField w = w.extractLsb' 0 64 := BitVec.extractLsb'_append_extractLsb'_eq_extractLsb' rfl
  exact hfields.trans BitVec.extractLsb'_eq_self

theorem decode_encode (i : Instr) : decode (encode i) = .command i := by
  cases i <;> rfl

/-- A word decodes to a command exactly where it is the command's word (30_encoding.md R73, R74): RSVD is 0, and the OPCODE that
the decoder found is the encoder's. -/
theorem decode_eq_command_iff {w : Word} {i : Instr} : decode w = .command i ↔ w = encode i := by
  constructor
  · intro h
    rw [← rsvdField_append_opcodeField w]
    unfold decode at h
    split_ifs at h with hrsvd hop hop hop hop hop <;> cases h <;> rw [not_not.mp hrsvd, hop] <;> rfl
  · rintro rfl
    exact decode_encode i

/-- The decoder of bytes answers a command exactly where there are eight bytes whose word decodes to it (30_encoding.md R70). -/
theorem decodeBytes_eq_command_iff {bs : List Byte} {i : Instr} :
    decodeBytes bs = .command i ↔ bs.length = 8 ∧ decode (BitVec.ofNat 64 (natOfLanes bs)) = .command i := by
  unfold decodeBytes
  by_cases hlen : bs.length = 8
  · cases decode (BitVec.ofNat 64 (natOfLanes bs)) <;> simp [hlen]
  · simp [hlen]

/-- Settles O6: the decoder reads the word the bytes hold, a word is decoded to its command only, and the lanes are the only
eight bytes that hold a word. -/
theorem byteStringDecodesToOneEncodingOnly : Obligations.ByteStringDecodesToOneEncodingOnly := by
  unfold Obligations.ByteStringDecodesToOneEncodingOnly
  intro bs i _
  rw [decodeBytes_eq_command_iff, decode_eq_command_iff]
  constructor
  · rintro ⟨hlen, hw⟩
    exact (ofNat_natOfLanes_eq_iff hlen).mp hw
  · rintro rfl
    exact ⟨lanesOf_length _, (ofNat_natOfLanes_eq_iff (lanesOf_length _)).mpr rfl⟩

end Sys2Proof

/-! SUPPORT. The host port (20_memory.md R50 to R55): an access at the host's turn, by whether it reaches the core and whether R52
admits it, and what the port's host fault record can become. -/

namespace Sys2Proof.Machine

/-- The host's turn with an access is that access, once it is taken from the schedule and the program. -/
theorem step_access {s : State} {acc : Access} {rest : List Agent} {ops : List HostOp} (h : NextAccess s acc rest ops) :
    step s = performAccess acc { s with schedule := rest, program := ops } := by
  obtain ⟨hs, hp⟩ := h
  simp only [step, hs, hostStep, hp]

/-- An access outside the window, whatever its size and kind (20_memory.md R50). -/
theorem performAccess_outside {acc : Access} {addr size : Nat} {v : Word} {s : State}
    (hacc : acc = .read addr size ∨ acc = .write addr size v)
    (h : addr < s.config.windowBase ∨ s.config.windowBase + 0x100 ≤ addr) :
    performAccess acc s = .next (respond .notReached s) := by
  have hoff := windowOffset_eq_none.mpr h
  rcases hacc with rfl | rfl <;> simp only [performAccess, hoff]

/-- A read in the window answers the port's value, or is a bus error (20_memory.md R53, R55). -/
theorem performAccess_read {off size : Nat} {s : State} (hoff : off < 0x100) :
    performAccess (.read (s.config.windowBase + off) size) s =
      .next ((portRead off size s).elim (busError s) fun v => respond (.data v) s) := by
  simp only [performAccess, windowOffset_eq_some.mpr ⟨rfl, hoff⟩]
  cases portRead off size s <;> rfl

/-- A write in the window has the port's outcome, or is a bus error (20_memory.md R54, R55). -/
theorem performAccess_write {off size : Nat} {v : Word} {s : State} (hoff : off < 0x100) :
    performAccess (.write (s.config.windowBase + off) size v) s =
      (portWrite off size v (respond .ack s)).getD (.next (busError s)) := by
  simp only [performAccess, windowOffset_eq_some.mpr ⟨rfl, hoff⟩]
  cases portWrite off size v (respond .ack s) <;> rfl

/-- An access in the window that 20_memory.md R52 does not admit. -/
def NotAdmitted (c : Config) (acc : Access) : Prop :=
  ∃ off size : Nat, off < 0x100 ∧ ((acc = .read (c.windowBase + off) size ∧ ¬ AdmittedRead off size) ∨
    ∃ v : Word, acc = .write (c.windowBase + off) size v ∧ ¬ AdmittedWrite off size)

theorem performAccess_notAdmitted {acc : Access} {s : State} (h : NotAdmitted s.config acc) :
    performAccess acc s = .next (busError s) := by
  obtain ⟨off, size, hoff, ⟨rfl, hadm⟩ | ⟨v, rfl, hadm⟩⟩ := h
  · rw [performAccess_read hoff, portRead_eq_none.mpr hadm]
    rfl
  · rw [performAccess_write hoff, portWrite_eq_none.mpr hadm]
    rfl

/-- Settles O47: the access does not reach the core. -/
theorem accessOutsideTheWindowIsNotSeen : Obligations.AccessOutsideTheWindowIsNotSeen := by
  unfold Obligations.AccessOutsideTheWindowIsNotSeen
  intro s rest ops acc addr size v hacc haddr hnext
  rw [step_access hnext]
  exact performAccess_outside hacc haddr

/-- Settles O45: the port has no value and no outcome for such an access. -/
theorem unadmittedAccessIsABusError : Obligations.UnadmittedAccessIsABusError := by
  unfold Obligations.UnadmittedAccessIsABusError
  intro s rest ops acc off size v hoff hacc hnext
  have hnot : NotAdmitted s.config acc := ⟨off, size, hoff, hacc.imp_right fun h => ⟨v, h⟩⟩
  rw [step_access hnext]
  exact performAccess_notAdmitted hnot

/-- A read has a value exactly where a readable register stands at its offset (20_memory.md R52, R53). -/
theorem portRead_eq_some {off size : Nat} {s : State} {v : Word} :
    portRead off size s = some v ↔ ∃ r : Reg, (size = 8 ∧ r.offset = off) ∧ readReg s r = some v := by
  unfold portRead
  cases ha : addressedReg off size with
  | none => simp [← addressedReg_eq_some, ha]
  | some r => simp [← addressedReg_eq_some, ha]

/-- Settles O43: an admitted read has a value, which is its register's; STATUS is the one register at 0xA8. -/
theorem admittedReadReturnsTheRegister : Obligations.AdmittedReadReturnsTheRegister := by
  unfold Obligations.AdmittedReadReturnsTheRegister
  intro s rest ops off hadm hnext
  obtain ⟨v, hv⟩ := Option.ne_none_iff_exists'.mp fun hnone => portRead_eq_none.mp hnone hadm
  obtain ⟨r, ⟨_, hr⟩, hread⟩ := portRead_eq_some.mp hv
  have hoff : off < 0x100 := by
    obtain ⟨_, _, hoff⟩ := hadm
    omega
  have hport : portRead off 8 { s with schedule := rest, program := ops } = some v :=
    portRead_eq_some.mpr ⟨r, ⟨rfl, hr⟩, hread⟩
  refine ⟨r, v, hr, hread, ?_, ?_⟩
  · rw [step_access hnext, performAccess_read (s := { s with schedule := rest, program := ops }) hoff, hport]
    rfl
  · rintro rfl
    obtain rfl : r = .status := Option.some.inj ((regAt_eq_some.mpr hr).symm.trans rfl)
    obtain rfl : statusWord s = v := Option.some.inj hread
    obtain ⟨_, _, _, _, _, hnum⟩ := statusWordLayout s
    exact hnum

/-- The offsets 0x00 to 0x48 are those of the RW registers (10_state.md R20). -/
theorem right_eq_rw_iff (r : Reg) : r.right = .rw ↔ r.offset ≤ 0x48 := by
  cases r <;> decide

/-- The port's write of an RW register writes that register and nothing else (20_memory.md R54). -/
theorem portWrite_of_writeReg {s t : State} {v : Word} {r : Reg} (h : writeReg s v r = some t) :
    portWrite r.offset 8 v s = some (.next t) := by
  have ha : addressedReg r.offset 8 = some r := addressedReg_eq_some.mpr ⟨rfl, rfl⟩
  cases r with
  | cmd => cases h
  | _ => simp only [portWrite, ha, h, Option.map_some]

/-- Settles O44: the RW register at the offset is written, and nothing else. -/
theorem admittedWriteStoresOnlyItsRegister : Obligations.AdmittedWriteStoresOnlyItsRegister := by
  unfold Obligations.AdmittedWriteStoresOnlyItsRegister
  intro s rest ops off v hle hmod hnext
  obtain ⟨r, hr⟩ := exists_reg_of_index (off / 8) (by omega)
  obtain rfl : r.offset = off := by omega
  have hright := (right_eq_rw_iff r).mpr hle
  obtain ⟨t, ht⟩ := Option.isSome_iff_exists.mp ((writeReg_isSome (answered s rest ops .ack) v r).mpr hright)
  have hstep : step s = .next t := by
    rw [step_access hnext, performAccess_write (s := { s with schedule := rest, program := ops }) (by omega)]
    exact congrArg (Option.getD · _) (portWrite_of_writeReg ht)
  have hread (r' : Reg) : readReg t r' = if r' = r then some v else readReg s r' := readReg_writeReg ht r'
  refine ⟨r, t, rfl, hright, hstep, (hread r).trans (if_pos rfl), fun r' hne => (hread r').trans (if_neg hne), ?_⟩
  rw [writeReg_some ht]
  exact ⟨⟨rfl, rfl, rfl, rfl, rfl, rfl, rfl, rfl⟩, rfl, rfl, rfl, rfl, rfl⟩

/-- A write that the port takes leaves the port's host fault record. -/
theorem portWrite_hostFault {off size : Nat} {v : Word} {s t : State} (h : portWrite off size v s = some (.next t)) :
    t.hostFault = s.hostFault := by
  unfold portWrite at h
  split at h
  · exact (cmdWrite_effect (Option.some.inj h)).keepsSurroundings.1
  · obtain ⟨u, hu, he⟩ := Option.map_eq_some_iff.mp h
    cases he
    rw [writeReg_some hu]
  · cases h

/-- An access leaves the host fault record, or it is a bus error, of an access that R52 does not admit (20_memory.md R55). -/
theorem performAccess_hostFault {acc : Access} {s t : State} (h : performAccess acc s = .next t) :
    t.hostFault = s.hostFault ∨ (NotAdmitted s.config acc ∧ t = busError s) := by
  cases acc with
  | read addr size =>
    cases hw : windowOffset s.config addr with
    | none =>
      cases (performAccess_outside (v := 0) (.inl rfl) (windowOffset_eq_none.mp hw)).symm.trans h
      exact .inl rfl
    | some off =>
      obtain ⟨rfl, hoff⟩ := windowOffset_eq_some.mp hw
      rw [performAccess_read hoff] at h
      cases hr : portRead off size s with
      | none =>
        rw [hr] at h
        cases h
        exact .inr ⟨⟨off, size, hoff, .inl ⟨rfl, portRead_eq_none.mp hr⟩⟩, rfl⟩
      | some v =>
        rw [hr] at h
        cases h
        exact .inl rfl
  | write addr size v =>
    cases hw : windowOffset s.config addr with
    | none =>
      cases (performAccess_outside (.inr rfl) (windowOffset_eq_none.mp hw)).symm.trans h
      exact .inl rfl
    | some off =>
      obtain ⟨rfl, hoff⟩ := windowOffset_eq_some.mp hw
      rw [performAccess_write hoff] at h
      cases hr : portWrite off size v (respond .ack s) with
      | none =>
        rw [hr] at h
        cases h
        exact .inr ⟨⟨off, size, hoff, .inr ⟨v, rfl, portWrite_eq_none.mp hr⟩⟩, rfl⟩
      | some o =>
        rw [hr] at h
        exact .inl (portWrite_hostFault (s := respond .ack s) (hr.trans (congrArg some h)))

/-- The read of a `poll` is admitted (30_encoding.md R84). -/
theorem poll_admitted (c : Config) : ¬ NotAdmitted c (.read (c.windowBase + 0xA8) 8) := by
  rintro ⟨off, size, _, ⟨hacc, hadm⟩ | ⟨v, hacc, _⟩⟩
  · obtain ⟨haddr, rfl⟩ := Access.read.inj hacc
    obtain rfl := Nat.add_left_cancel haddr
    exact hadm (by decide)
  · cases hacc

/-- The sequencer leaves the host fault record. -/
theorem CoreEffect.keepsHostFault {s t : State} (h : CoreEffect s t) : t.hostFault = s.hostFault := by
  cases h with
  | lastIteration =>
    rcases divFinish_cases (nextRem s) (nextQuo s) (iterated s) with ⟨_, e⟩ | ⟨_, e⟩ <;> rw [e]
    · exact raise_hostFault _ _
    · rfl
  | _ => rfl

/-- A step leaves the host fault record, or it is a bus error, of an access that R52 does not admit (20_memory.md R55). -/
theorem step_hostFault {s t : State} (h : step s = .next t) :
    t.hostFault = s.hostFault ∨ ∃ (acc : Access) (rest : List Agent) (ops : List HostOp),
      NextAccess s acc rest ops ∧ NotAdmitted s.config acc ∧ t = busError { s with schedule := rest, program := ops } := by
  rcases step_cases s with ⟨_, e⟩ | ⟨rest, hs, e⟩ | ⟨rest, _, e⟩ | ⟨rest, _, e⟩ <;> rw [e] at h
  · exact .inl (coreStep_effect h).keepsHostFault
  · rcases hostStep_cases { s with schedule := rest } with ⟨_, e⟩ | ⟨acc, ops, hp, e⟩ | ⟨_, prog, _, e⟩ <;> rw [e] at h
    · cases h
      exact .inl rfl
    · rcases performAccess_hostFault h with hkeep | hbus
      · exact .inl hkeep
      · exact .inr ⟨acc, rest, ops, ⟨hs, hp⟩, hbus⟩
    · rcases performAccess_hostFault h with hkeep | ⟨hnot, _⟩
      · exact .inl hkeep
      · exact absurd hnot (poll_admitted s.config)
  · exact .inl (coreStep_effect h).keepsHostFault
  · cases h
    exact .inl rfl

/-- Settles O46: a step keeps the record, or it is a bus error, which touches nothing of the core. -/
theorem hostFaultIsNeverCleared : Obligations.HostFaultIsNeverCleared := by
  unfold Obligations.HostFaultIsNeverCleared
  intro s t h
  rcases step_hostFault h with hkeep | ⟨acc, rest, ops, hnext, ⟨off, size, hoff, hacc⟩, rfl⟩
  · exact ⟨fun hs => hkeep.trans hs, fun hs ht => absurd (hs.symm.trans (hkeep.symm.trans ht)) nofun⟩
  · exact ⟨fun _ => rfl, fun _ _ => ⟨⟨acc, off, size, rest, ops, hnext, hoff, hacc⟩, rfl, rfl, ⟨rfl, rfl, rfl, rfl⟩,
      ⟨rfl, rfl, rfl⟩, rfl, rfl, rfl, rfl, rfl, rfl, rfl, rfl⟩⟩

end Sys2Proof.Machine

/-! SUPPORT. A command in progress (60_exceptions.md R164, 20_memory.md R66 and R68): a host step leaves it alone, and its core
steps bring it to its results. -/

namespace Sys2Proof.Machine

/-- A command write that accepts nothing leaves the internal state (60_exceptions.md R164). -/
theorem CommandEffect.sameInternal_or_accepted {s t : State} {d : Decoded} (h : CommandEffect s d t) :
    SameInternal s t ∨ (s.phase = .idle ∧
      (d = .command .mul ∨ ((d = .command .div ∨ d = .command .muldiv) ∧ join2 s.dv ≠ 0))) := by
  cases h with
  | nop => exact .inl ⟨rfl, rfl, rfl, rfl, rfl, rfl, rfl, rfl⟩
  | clear => exact .inl ⟨rfl, rfl, rfl, rfl, rfl, rfl, rfl, rfl⟩
  | rejected => exact .inl (by simp)
  | mul hidle => exact .inr ⟨hidle, .inl rfl⟩
  | div hidle hd => exact .inr ⟨hidle, .inr ⟨.inl rfl, hd⟩⟩
  | muldiv hidle hd => exact .inr ⟨hidle, .inr ⟨.inr rfl, hd⟩⟩

/-- A step that is no reset and accepts no command leaves the internal state and the results, or it is the sequencer's. -/
theorem StepEffect.same_or_core {s t : State} (h : StepEffect s t) (hreset : ¬ ResetTurn s) (haccept : ¬ AcceptsNext s) :
    (SameInternal s t ∧ SameResults s t) ∨ ∃ rest, CoreTurn s ∧ CoreEffect { s with schedule := rest } t := by
  cases h with
  | core rest _ hturn h => exact .inr ⟨rest, hturn, h⟩
  | port => exact .inl ⟨⟨rfl, rfl, rfl, rfl, rfl, rfl, rfl, rfl⟩, rfl, rfl, rfl⟩
  | operand _ _ _ _ _ _ hw =>
    rw [writeReg_some hw]
    exact .inl ⟨⟨rfl, rfl, rfl, rfl, rfl, rfl, rfl, rfl⟩, rfl, rfl, rfl⟩
  | command rest ops w _ hacc h =>
    rcases h.sameInternal_or_accepted with hsame | ⟨hidle, hcmd⟩
    · exact .inl ⟨hsame, h.keepsResults⟩
    · exact absurd ⟨hidle, w, rest, ops, hacc, hcmd⟩ haccept
  | reset _ hturn => exact absurd hturn hreset

/-- Settles O52: at the host's turn there is no reset and no core step, and a busy core accepts nothing. -/
theorem hostStepKeepsTheRunningCommand : Obligations.HostStepKeepsTheRunningCommand := by
  unfold Obligations.HostStepKeepsTheRunningCommand
  intro s t hhost hbusy h
  have hreset : ¬ ResetTurn s := fun hreset => nomatch hhost.symm.trans hreset
  have haccept : ¬ AcceptsNext s := fun ⟨hidle, _⟩ => hbusy hidle
  rcases (step_effect h).same_or_core hreset haccept with hsame | ⟨_, hcore, _⟩
  · exact hsame
  · rcases hcore with hcore | hcore <;> simp [hcore] at hhost

theorem join4_mul128 {a b : Nat} (ha : a < 2 ^ 128) (hb : b < 2 ^ 128) : join4 (mul128 a b) = a * b := by
  have hlimb3 := limb3_lt ha hb
  have hlo : lo (partialProducts a b).ll < 2 ^ 64 := Nat.mod_lt _ (Nat.two_pow_pos 64)
  rw [mul_eq_limb_sum, join4, mul128]
  simp only [BitVec.toNat_ofNat, Nat.mod_mod, Nat.mod_eq_of_lt hlimb3, Nat.mod_eq_of_lt hlo]

/-- A 128-bit value is its two limbs (42_divider.md R137). -/
theorem join2_limbs2 {v : Nat} (hv : v < 2 ^ 128) : join2 (limbs2 v) = v := by
  simp only [join2, limbs2, slice, BitVec.toNat_ofNat]
  omega

/-- The result registers hold the results of a command `i` accepted in `s` (20_memory.md R66). -/
def ResultsHold (i : Instr) (s u : State) : Prop :=
  (i = .mul ∨ i = .muldiv → join4 u.p = join2 s.a * join2 s.b) ∧
    (i = .div → join4 u.q = join4 s.n / join2 s.dv ∧ join2 u.rm = join4 s.n % join2 s.dv) ∧
    (i = .muldiv → join4 u.q = join2 s.a * join2 s.b / join2 s.dv ∧ join2 u.rm = join2 s.a * join2 s.b % join2 s.dv)

/-- How far the core, in state `u`, is with a command `i` accepted in `s`: about to multiply, in its division, or complete. -/
inductive CommandProgress (i : Instr) (s u : State) : Prop where
  | mulOnly (hp : u.phase = .mulOnly) (hi : i = .mul) (ha : u.opa.toNat = join2 s.a) (hb : u.opb.toNat = join2 s.b)
  | mulThenDiv (hp : u.phase = .mulThenDiv) (hi : i = .muldiv) (ha : u.opa.toNat = join2 s.a) (hb : u.opb.toNat = join2 s.b)
      (hd : u.dvr.toNat = join2 s.dv) (hpos : 0 < join2 s.dv)
      (hcleared : u.racc = 0 ∧ u.qacc = Limbs4.zero ∧ u.cnt = 0)
  | dividing (hp : u.phase = .div) (hd : u.dvr.toNat = join2 s.dv) (hdiv : Dividing u)
      (hn : (i = .div ∧ join4 u.dvd = join4 s.n) ∨
        (i = .muldiv ∧ join4 u.dvd = join2 s.a * join2 s.b ∧ join4 u.p = join2 s.a * join2 s.b))
  | complete (hp : u.phase = .idle) (hres : ResultsHold i s u)

/-- Cleared accumulators start a division (42_divider.md R133, R134). -/
theorem dividing_of_cleared {u : State} (hpos : 0 < u.dvr.toNat) (hp : u.phase = .div) (hr : u.racc = 0)
    (hq : u.qacc = Limbs4.zero) (hc : u.cnt = 0) : Dividing u := by
  obtain ⟨hracc, hqacc⟩ := divisionInv_of_cleared hc hr hq hp
  exact ⟨by rw [hc]; decide, hpos, hracc, hqacc⟩

/-- An iteration before the last leaves a division under way (42_divider.md R140). -/
theorem Dividing.iterated {u : State} (h : Dividing u) (hp : u.phase = .div) (hk : u.cnt.toNat < 255) :
    Dividing (iterated u) := by
  obtain ⟨hracc, hqacc⟩ := h.iterated_divisionInv hp
  exact ⟨h.iterated_cnt.trans_le hk, h.dvr_pos, hracc, hqacc⟩

/-- The last iteration leaves the quotient and the remainder of the whole dividend (42_divider.md R137, R140). -/
theorem Dividing.last {u : State} (h : Dividing u) (hk : u.cnt.toNat = 255) :
    join4 (nextQuo u) = join4 u.dvd / u.dvr.toNat ∧ join2 (limbs2 (nextRem u)) = join4 u.dvd % u.dvr.toNat := by
  rw [join2_limbs2 h.nextRem_lt_two_pow, h.nextQuo_eq, h.nextRem_eq, hk]
  simp

/-- The progress of a command is a matter of the internal state and the results. -/
theorem CommandProgress.congr {i : Instr} {s u t : State} (h : CommandProgress i s u) (hi : SameInternal u t)
    (hr : SameResults u t) : CommandProgress i s t := by
  obtain ⟨ephase, eopa, eopb, edvr, edvd, eracc, eqacc, ecnt⟩ := hi
  obtain ⟨ep, eq, erm⟩ := hr
  cases h with
  | mulOnly hp hi ha hb => exact .mulOnly (ephase.trans hp) hi (by rwa [eopa]) (by rwa [eopb])
  | mulThenDiv hp hi ha hb hd hpos hcleared =>
    exact .mulThenDiv (ephase.trans hp) hi (by rwa [eopa]) (by rwa [eopb]) (by rwa [edvr]) hpos (by rwa [eracc, eqacc, ecnt])
  | dividing hp hd hdiv hn =>
    obtain ⟨hcnt, hpos, hracc, hqacc⟩ := hdiv
    refine .dividing (ephase.trans hp) (by rwa [edvr]) ⟨?_, ?_, ?_, ?_⟩ (by rwa [edvd, ep])
    · rwa [ecnt]
    · rwa [edvr]
    · rwa [eracc, dividedSoFar, edvd, ecnt, edvr]
    · rwa [eqacc, dividedSoFar, edvd, ecnt, edvr]
  | complete hp hres => exact .complete (ephase.trans hp) (by unfold ResultsHold; rwa [ep, eq, erm])

/-- A core step of a command in progress is progress. -/
theorem CommandProgress.coreEffect {i : Instr} {s u t : State} (h : CommandProgress i s u) (hcore : CoreEffect u t) :
    CommandProgress i s t := by
  have hprod : u.opa.toNat = join2 s.a → u.opb.toNat = join2 s.b →
      join4 (mul128 u.opa.toNat u.opb.toNat) = join2 s.a * join2 s.b := fun ha hb => by
    rw [join4_mul128 u.opa.isLt u.opb.isLt, ha, hb]
  cases h with
  | mulOnly hp hi ha hb =>
    cases hcore with
    | mulOnly =>
      subst hi
      exact .complete rfl ⟨fun _ => hprod ha hb, nofun, nofun⟩
    | idle hq | mulThenDiv hq | lastIteration hq | iteration hq => exact absurd (hp.symm.trans hq) nofun
  | mulThenDiv hp hi ha hb hd hpos hcleared =>
    cases hcore with
    | mulThenDiv =>
      obtain ⟨hr, hq, hc⟩ := hcleared
      exact .dividing rfl hd (dividing_of_cleared (hd ▸ hpos) rfl hr hq hc) (.inr ⟨hi, hprod ha hb, hprod ha hb⟩)
    | idle hq | mulOnly hq | lastIteration hq | iteration hq => exact absurd (hp.symm.trans hq) nofun
  | dividing hp hd hdiv hn =>
    cases hcore with
    | lastIteration _ hk =>
      obtain ⟨hquo, hrem⟩ := hdiv.last hk
      rw [hd] at hquo hrem
      rw [hdiv.divFinish_eq]
      refine .complete rfl ?_
      rcases hn with ⟨rfl, hn⟩ | ⟨rfl, hn, hp⟩ <;> rw [hn] at hquo hrem
      · exact ⟨nofun, fun _ => ⟨hquo, hrem⟩, nofun⟩
      · exact ⟨fun _ => hp, nofun, fun _ => ⟨hquo, hrem⟩⟩
    | iteration _ hk => exact .dividing hp hd (hdiv.iterated hp hk) hn
    | idle hq | mulOnly hq | mulThenDiv hq => exact absurd (hp.symm.trans hq) nofun
  | complete hp hres =>
    cases hcore with
    | idle => exact .complete hp hres
    | mulOnly hq | mulThenDiv hq | lastIteration hq | iteration hq => exact absurd (hp.symm.trans hq) nofun

/-- Every step but a reset and the acceptance of another command keeps the progress of a command. -/
theorem CommandProgress.step {i : Instr} {s u t : State} (h : CommandProgress i s u)
    (hquiet : ¬ ResetTurn u ∧ ¬ AcceptsNext u) (hstep : step u = .next t) : CommandProgress i s t := by
  obtain ⟨hreset, haccept⟩ := hquiet
  rcases (step_effect hstep).same_or_core hreset haccept with ⟨hi, hr⟩ | ⟨rest, _, hcore⟩
  · exact h.congr hi hr
  · have htaken : CommandProgress i s { u with schedule := rest } :=
      h.congr ⟨rfl, rfl, rfl, rfl, rfl, rfl, rfl, rfl⟩ ⟨rfl, rfl, rfl⟩
    exact htaken.coreEffect hcore

/-- The latches hold whole operands (41_multiplier.md R113). -/
theorem latched_toNat (x : Limbs2) : (BitVec.ofNat 128 (join2 x)).toNat = join2 x := by
  rw [BitVec.toNat_ofNat]
  exact Nat.mod_eq_of_lt (join2_lt x)

/-- An accepted command has begun. -/
theorem commandProgress_of_accepted {i : Instr} {s t : State} (hidle : s.phase = .idle)
    (hi : i = .mul ∨ ((i = .div ∨ i = .muldiv) ∧ join2 s.dv ≠ 0)) (h : exec i s = .next t) : CommandProgress i s t := by
  rcases hi with rfl | ⟨rfl | rfl, hd⟩ <;> cases h
  · rw [dispatchCompute_accept (divides := false) hidle nofun]
    exact .mulOnly rfl rfl (latched_toNat s.a) (latched_toNat s.b)
  · rw [dispatchCompute_accept hidle fun _ => hd]
    have hdvr : (divAccept (setDone false s)).dvr.toNat = join2 s.dv := latchedDivisor_toNat s
    exact .dividing rfl hdvr (dividing_of_cleared (hdvr ▸ Nat.pos_of_ne_zero hd) rfl rfl rfl rfl) (.inl ⟨rfl, rfl⟩)
  · rw [dispatchCompute_accept hidle fun _ => hd]
    exact .mulThenDiv rfl rfl (latched_toNat s.a) (latched_toNat s.b) (latchedDivisor_toNat s) (Nat.pos_of_ne_zero hd)
      ⟨rfl, rfl, rfl⟩

/-- What holds at `s`, and is kept by every step from a state with `Q`, holds after a run through states with `Q`. -/
theorem runFor_keeps_while {P Q : State → Prop} (hstep : ∀ u t, P u → Q u → step u = .next t → P t) {k : Nat}
    {s t : State} (hs : P s) (hq : ∀ j u, j < k → runFor j s = .next u → Q u) (h : runFor k s = .next t) : P t := by
  induction k generalizing s with
  | zero =>
    cases h
    exact hs
  | succ k ih =>
    rw [runFor] at h
    cases hu : step s with
    | next u =>
      rw [hu] at h
      refine ih (hstep s u hs (hq 0 s (Nat.succ_pos k) rfl) hu) (fun j v hj hv => hq (j + 1) v (Nat.succ_lt_succ hj) ?_) h
      rw [runFor, hu]
      exact hv
    | fault r => rw [hu] at h; cases h
    | refused r => rw [hu] at h; cases h

/-- Settles O42: a command in progress that is not busy any more is complete. -/
theorem polledResultsAreComplete : Obligations.PolledResultsAreComplete := by
  unfold Obligations.PolledResultsAreComplete
  intro i k s s₁ t hidle hi hexec hquiet hrun hbusy _
  rw [statusWord_busy, busy_eq_false] at hbusy
  have hprogress : CommandProgress i s t :=
    runFor_keeps_while (P := CommandProgress i s) (fun _ _ h => h.step) (commandProgress_of_accepted hidle hi hexec) hquiet hrun
  cases hprogress with
  | complete _ hres => exact hres
  | mulOnly hp | mulThenDiv hp | dividing hp => exact absurd (hbusy.symm.trans hp) nofun

end Sys2Proof.Machine

/-! SUPPORT. Command words by number (30_encoding.md R71 to R76): the fields of a word, the words that are illegal, and what the
write of an illegal one does. -/

namespace Sys2Proof

/-- The encoder's words are the match values (30_encoding.md R73). -/
theorem encode_toNat (i : Instr) : (encode i).toNat = Machine.cmdMatch i := by
  cases i <;> rfl

theorem cmdMatch_le (i : Instr) : Machine.cmdMatch i ≤ 4 := by
  cases i <;> decide

/-- The numbers 0 to 4 are the words of the five commands (30_encoding.md R72). -/
theorem exists_encode_of_toNat_le {w : Word} (h : w.toNat ≤ 4) : ∃ i, w = encode i := by
  obtain h | h | h | h | h : w.toNat = 0 ∨ w.toNat = 1 ∨ w.toNat = 2 ∨ w.toNat = 3 ∨ w.toNat = 4 := by omega
  · exact ⟨.nop, BitVec.eq_of_toNat_eq h⟩
  · exact ⟨.mul, BitVec.eq_of_toNat_eq h⟩
  · exact ⟨.div, BitVec.eq_of_toNat_eq h⟩
  · exact ⟨.muldiv, BitVec.eq_of_toNat_eq h⟩
  · exact ⟨.clear, BitVec.eq_of_toNat_eq h⟩

/-- A word is illegal exactly where it is no command's word (30_encoding.md R74, R76). -/
theorem decode_eq_illegal_iff {w : Word} : decode w = .illegal ↔ 4 < w.toNat := by
  constructor
  · intro h
    by_contra hle
    obtain ⟨i, rfl⟩ := exists_encode_of_toNat_le (Nat.le_of_not_lt hle)
    exact nomatch (decode_encode i).symm.trans h
  · intro h
    cases hd : decode w with
    | illegal => rfl
    | command i =>
      have hw := congrArg BitVec.toNat (decode_eq_command_iff.mp hd)
      rw [encode_toNat] at hw
      exact absurd (hw.trans_le (cmdMatch_le i)) (Nat.not_le_of_lt h)

theorem opcodeField_toNat (w : Word) : (opcodeField w).toNat = w.toNat % 2 ^ 8 := rfl

theorem rsvdField_toNat (w : Word) : (rsvdField w).toNat = w.toNat / 2 ^ 8 := by
  have hw := w.isLt
  have hfield : (rsvdField w).toNat = w.toNat / 2 ^ 8 % 2 ^ 56 := by
    rw [← Nat.shiftRight_eq_div_pow]
    rfl
  omega

/-- `valid_cmd` by number (30_encoding.md R73). -/
theorem validCmd_iff {w : Word} : validCmd w = true ↔ w.toNat / 2 ^ 8 = 0 ∧ w.toNat % 2 ^ 8 ≤ 0x04 := by
  rw [validCmd, Bool.and_eq_true, beq_iff_eq, decide_eq_true_iff, ← BitVec.toNat_inj, rsvdField_toNat, opcodeField_toNat]
  rfl

/-- Settles O5: a command is decoded from its word only, and the other words are the numbers above 4. -/
theorem decodeIsExactOnEveryWord : Obligations.DecodeIsExactOnEveryWord := by
  unfold Obligations.DecodeIsExactOnEveryWord
  refine ⟨fun w i => decode_eq_command_iff, fun w => decode_eq_illegal_iff, fun w => ?_, fun w => ?_, encode_toNat .nop,
    encode_toNat .mul, encode_toNat .div, encode_toNat .muldiv, encode_toNat .clear⟩
  · rw [decode_eq_illegal_iff]
    omega
  · rw [validCmd_iff, ne_eq, decode_eq_illegal_iff]
    omega

/-- Settles O4: five words are the encoder's, the others are numbers above 4. -/
theorem decodeSpecWords : Obligations.DecodeSpecWords := by
  unfold Obligations.DecodeSpecWords
  have hillegal (w : Word) (h : 4 < w.toNat) : decode w = .illegal := decode_eq_illegal_iff.mpr h
  exact ⟨decode_encode .nop, decode_encode .mul, decode_encode .div, decode_encode .muldiv, decode_encode .clear,
    hillegal _ (by decide), hillegal _ (by decide), hillegal _ (by decide), hillegal _ (by decide)⟩

namespace Machine

/-- Settles O3: the write is `cmd_write`, and the word is a number above 4. -/
theorem illegalWordIsRejected : Obligations.IllegalWordIsRejected := by
  unfold Obligations.IllegalWordIsRejected
  intro s rest ops w hnext hfields
  have hillegal : decode w = .illegal := decode_eq_illegal_iff.mpr (by omega)
  rw [step_cmdWrite hnext, cmdWrite, hillegal]
  exact congrArg Host.Outcome.next (rejectIllegal_eq (answered s rest ops .ack))

end Machine

end Sys2Proof

/-! SUPPORT. How many core steps a busy core still takes (70_reset_and_hazards.md R190, R191). -/

namespace Sys2Proof.Machine

/-- The core steps until the core is idle, by the phase (70_reset_and_hazards.md R190). -/
def stepsToIdle (s : State) : Nat :=
  match s.phase with
  | .idle => 0
  | .mulOnly => 1
  | .mulThenDiv => 257
  | .div => 256 - s.cnt.toNat

theorem stepsToIdle_le (s : State) : stepsToIdle s ≤ 257 := by
  unfold stepsToIdle
  split <;> omega

/-- In states that meet the invariants, only an idle core has no step left. -/
theorem stepsToIdle_eq_zero_iff {s : State} (hinv : CoreInv s) : stepsToIdle s = 0 ↔ s.phase = .idle := by
  cases hp : s.phase with
  | idle => simp only [stepsToIdle, hp]
  | mulOnly | mulThenDiv => simp [stepsToIdle, hp]
  | div =>
    have hcnt := (dividing_of_coreInv hinv hp).cnt_le
    simp only [stepsToIdle, hp, reduceCtorEq, iff_false]
    omega

/-- A core step of a busy core is one of those it has left, and the last of them sets DONE. -/
theorem CoreEffect.stepsToIdle_succ {s t : State} (h : CoreEffect s t) (hinv : CoreInv s) (hbusy : s.phase ≠ .idle) :
    stepsToIdle t + 1 = stepsToIdle s ∧ (t.phase = .idle → t.done = true) := by
  cases h with
  | idle hp => exact absurd hp hbusy
  | mulOnly hp => exact ⟨by simp only [stepsToIdle, hp], fun _ => rfl⟩
  | mulThenDiv hp =>
    obtain ⟨⟨_, hcnt, _⟩, _⟩ := hinv
    exact ⟨by simp [stepsToIdle, hp, hcnt (.inr hp)], nofun⟩
  | lastIteration hp hk =>
    rw [(dividing_of_coreInv hinv hp).divFinish_eq]
    exact ⟨by simp only [stepsToIdle, hp, hk], fun _ => rfl⟩
  | iteration hp hk =>
    have hphase : (iterated s).phase = .div := hp
    simp only [stepsToIdle, hphase, hp, (dividing_of_coreInv hinv hp).iterated_cnt, reduceCtorEq, false_implies, and_true]
    omega

theorem coreRun_succ {s t : State} (h : coreStep s = .next t) (k : Nat) : coreRun (k + 1) s = coreRun k t := by
  rw [coreRun, h]

/-- A busy core that meets the invariants is idle with DONE = 1 after the steps it has left, and busy before. -/
theorem coreRun_stepsToIdle {s : State} (hinv : CoreInv s) (hbusy : s.phase ≠ .idle) :
    ∃ t, coreRun (stepsToIdle s) s = .next t ∧ t.phase = .idle ∧ t.done = true ∧
      ∀ (j : Nat) (u : State), j < stepsToIdle s → coreRun j s = .next u → u.phase ≠ .idle := by
  generalize hn : stepsToIdle s = n
  induction n generalizing s with
  | zero => exact absurd ((stepsToIdle_eq_zero_iff hinv).mp hn) hbusy
  | succ n ih =>
    obtain ⟨t, hstep⟩ := coreStep_next hinv
    have heff := coreStep_effect hstep
    have htinv : CoreInv t := heff.keepsCoreInv hinv
    obtain ⟨hleft, hdone⟩ := heff.stepsToIdle_succ hinv hbusy
    obtain rfl : stepsToIdle t = n := by omega
    have hrest : ∃ e, coreRun (stepsToIdle t) t = .next e ∧ e.phase = .idle ∧ e.done = true ∧
        ∀ (j : Nat) (u : State), j < stepsToIdle t → coreRun j t = .next u → u.phase ≠ .idle := by
      by_cases hidle : t.phase = .idle
      · rw [(stepsToIdle_eq_zero_iff htinv).mpr hidle]
        exact ⟨t, rfl, hidle, hdone hidle, nofun⟩
      · exact ih htinv hidle rfl
    obtain ⟨e, hrun, he, hedone, hfirst⟩ := hrest
    refine ⟨e, (coreRun_succ hstep _).trans hrun, he, hedone, fun j u hj hu => ?_⟩
    cases j with
    | zero =>
      cases hu
      exact hbusy
    | succ j => exact hfirst j u (Nat.lt_of_succ_lt_succ hj) ((coreRun_succ hstep j).symm.trans hu)

/-- Settles O40: the steps left are 1 to 257, whatever the phase. -/
theorem busyCoreGoesIdle : Obligations.BusyCoreGoesIdle := by
  unfold Obligations.BusyCoreGoesIdle
  intro s hinv hbusy
  obtain ⟨t, hrun⟩ := coreRun_stepsToIdle hinv hbusy
  have hpos : 1 ≤ stepsToIdle s := Nat.one_le_iff_ne_zero.mpr (hbusy ∘ (stepsToIdle_eq_zero_iff hinv).mp)
  exact ⟨stepsToIdle s, t, hpos, stepsToIdle_le s, hrun⟩

end Sys2Proof.Machine

/-! SUPPORT. The host's statements at its turns (30_encoding.md R81 to R84): one register write, one register read and one read of a
`poll`, and the runs of writes and reads that a 128-bit or 256-bit statement stands for. -/

namespace Sys2Proof.Machine

theorem Reg.offset_lt (r : Reg) : r.offset < 0x100 := by
  cases r <;> decide

/-- The host's turn with a write of an operand register (20_memory.md R54). -/
theorem step_writeReg {s t : State} {r : Reg} {v : Word} {rest : List Agent} {ops : List HostOp}
    (hnext : NextAccess s (.write (s.config.windowBase + r.offset) 8 v) rest ops)
    (h : writeReg (answered s rest ops .ack) v r = some t) : step s = .next t := by
  rw [step_access hnext, performAccess_write (s := { s with schedule := rest, program := ops }) r.offset_lt]
  exact congrArg (Option.getD · _) (portWrite_of_writeReg h)

/-- A read of a register answers what it holds (20_memory.md R53). -/
theorem performAccess_readReg {s : State} {r : Reg} {v : Word} (h : readReg s r = some v) :
    performAccess (.read (s.config.windowBase + r.offset) 8) s = .next (respond (.data v) s) := by
  rw [performAccess_read r.offset_lt, portRead_eq_some.mpr ⟨r, ⟨rfl, rfl⟩, h⟩]
  rfl

/-- A register holds the same, whatever stands at the port. -/
theorem readReg_port (s : State) (sched : List Agent) (prog : List HostOp) (rs : List Response) (r : Reg) :
    readReg { s with schedule := sched, program := prog, responses := rs } r = readReg s r := by
  cases r <;> rfl

/-- The host's turn with a read of a register (20_memory.md R53). -/
theorem step_readReg {s : State} {r : Reg} {v : Word} {rest : List Agent} {ops : List HostOp}
    (hnext : NextAccess s (.read (s.config.windowBase + r.offset) 8) rest ops) (h : readReg s r = some v) :
    step s = .next (answered s rest ops (.data v)) := by
  rw [step_access hnext]
  exact performAccess_readReg ((readReg_port s rest ops s.responses r).trans h)

/-- What is left of a program after a `poll`'s read (30_encoding.md R84). -/
theorem afterPoll_eq (s : State) (ops : List HostOp) :
    (if (statusWord s).getLsbD 0 then .poll :: ops else ops) = if s.phase = .idle then ops else .poll :: ops := by
  rw [statusWord_busy]
  by_cases hidle : s.phase = .idle
  · rw [if_pos hidle, (busy_eq_false s).mpr hidle]
    rfl
  · rw [if_neg hidle, (busy_iff s).mpr hidle]
    rfl

/-- The host's turn with a `poll`: one read of STATUS, after which the poll is done if the core is idle (30_encoding.md R84). -/
theorem step_poll {s : State} {rest : List Agent} {ops : List HostOp} (hs : s.schedule = .host :: rest)
    (hp : s.program = .poll :: ops) :
    step s = .next (answered s rest (if s.phase = .idle then ops else .poll :: ops) (.data (statusWord s))) := by
  rw [← afterPoll_eq]
  simp only [step, hs, hostStep, hp]
  exact performAccess_readReg (r := .status) rfl

/-- Settles O60: the poll's one step, which leaves an empty program exactly where the last poll is done. -/
theorem pollRepeatsWhileBusy : Obligations.PollRepeatsWhileBusy := by
  unfold Obligations.PollRepeatsWhileBusy
  intro s rest ops hs hp
  have hstep := step_poll hs hp
  refine ⟨hstep, ?_⟩
  rintro rfl
  have hne : s.program ≠ [] := by simp [hp]
  have hlast (hidle : s.phase = .idle) : PerformsLastStatement s (answered s rest [] (.data (statusWord s))) := by
    rw [if_pos hidle] at hstep
    exact ⟨hstep, hne, rfl⟩
  have hidle_of_last {t : State} (h : PerformsLastStatement s t) : s.phase = .idle := by
    obtain ⟨_, ⟨_, hacc⟩ | ⟨hidle, _⟩⟩ := performsLastStatement_host h
    · exact nomatch hp.symm.trans hacc
    · exact hidle
  refine ⟨⟨fun ⟨t, h⟩ => hidle_of_last h, fun hidle => ⟨_, hlast hidle⟩⟩, fun hidle => ⟨1, ?_⟩⟩
  obtain ⟨hnext, hleft⟩ := hlast hidle
  rw [endStateWithin, hnext]
  exact if_pos hleft

/-- The host's turns for reads of registers, oldest first, each with the value it holds: nothing but the port's answers. -/
theorem runFor_reads {s : State} {rest : List Agent} {ops : List HostOp} (xs : List (Reg × Word))
    (hs : s.schedule = List.replicate xs.length .host ++ rest)
    (hp : s.program = xs.map (fun x => (rdLine x.1).toOp s.config) ++ ops)
    (h : ∀ x ∈ xs, readReg s x.1 = some x.2) :
    runFor xs.length s = .next { s with
      schedule := rest
      program := ops
      responses := (xs.map fun x => .data x.2).reverse ++ s.responses } := by
  induction xs generalizing s with
  | nil =>
    subst hs hp
    rfl
  | cons x xs ih =>
    obtain ⟨hx, hxs⟩ := List.forall_mem_cons.mp h
    rw [List.length_cons, runFor, step_readReg ⟨hs, hp⟩ hx]
    refine (ih rfl rfl fun y hy => (readReg_port s _ _ _ y.1).trans (hxs y hy)).trans ?_
    rw [List.map_cons, List.reverse_cons, List.append_assoc]
    rfl

/-- Settles O59: the statement's reads answer the registers' limbs, which its result joins. -/
theorem rd256AndRd128GiveTheResult : Obligations.Rd256AndRd128GiveTheResult := by
  unfold Obligations.Rd256AndRd128GiveTheResult
  constructor
  · intro s x rest ops hs hp
    cases x with
    | p =>
      exact ⟨_, runFor_reads [(.p0, s.p.l0), (.p1, s.p.l1), (.p2, s.p.l2), (.p3, s.p.l3)] hs hp (by simp [readReg]), rfl⟩
    | q =>
      exact ⟨_, runFor_reads [(.q0, s.q.l0), (.q1, s.q.l1), (.q2, s.q.l2), (.q3, s.q.l3)] hs hp (by simp [readReg]), rfl⟩
  · intro s rest ops hs hp
    exact ⟨_, runFor_reads [(.rm0, s.rm.l0), (.rm1, s.rm.l1)] hs hp (by simp [readReg]), rfl⟩

/-- The state with these in the schedule, the program and the port's record. -/
def State.withPort (s : State) (sched : List Agent) (prog : List HostOp) (rs : List Response) : State :=
  { s with schedule := sched, program := prog, responses := rs }

theorem State.withPort_self {s : State} {sched : List Agent} {prog : List HostOp} (hs : s.schedule = sched)
    (hp : s.program = prog) : s.withPort sched prog s.responses = s := by
  subst hs hp
  rfl

/-- A write of a register does the same, whatever stands at the port. -/
theorem writeReg_withPort {s t : State} {v : Word} {r : Reg} (h : writeReg s v r = some t) (sched : List Agent)
    (prog : List HostOp) (rs : List Response) :
    writeReg (s.withPort sched prog rs) v r = some (t.withPort sched prog rs) := by
  cases r <;> cases h <;> rfl

/-- Register writes in order, without the accesses that make them. -/
def writeRegs (s : State) (ws : List (Reg × Word)) : Option State := ws.foldlM (fun u w => writeReg u w.2 w.1) s

theorem writeRegs_withPort {s t : State} {ws : List (Reg × Word)} (h : writeRegs s ws = some t) (sched : List Agent)
    (prog : List HostOp) (rs : List Response) :
    writeRegs (s.withPort sched prog rs) ws = some (t.withPort sched prog rs) := by
  induction ws generalizing s with
  | nil =>
    cases h
    rfl
  | cons w ws ih =>
    obtain ⟨u, hw, hws⟩ := Option.bind_eq_some_iff.mp (List.foldlM_cons.symm.trans h)
    rw [writeRegs, List.foldlM_cons, writeReg_withPort hw]
    exact ih hws

/-- The host's turns for register writes, oldest first: their effects in order, and an acknowledgement each. -/
theorem runFor_writes {s t : State} {rest : List Agent} {ops : List HostOp} (ws : List (Reg × Word))
    (hs : s.schedule = List.replicate ws.length .host ++ rest)
    (hp : s.program = ws.map (fun w => ListingLine.toOp s.config (.w w.1.offset w.2)) ++ ops)
    (h : writeRegs s ws = some t) :
    runFor ws.length s = .next (t.withPort rest ops (List.replicate ws.length .ack ++ s.responses)) := by
  induction ws generalizing s t with
  | nil =>
    cases h
    exact congrArg Host.Outcome.next (State.withPort_self hs hp).symm
  | cons w ws ih =>
    obtain ⟨u, hw, hws⟩ := Option.bind_eq_some_iff.mp (List.foldlM_cons.symm.trans h)
    have hconfig : u.config = s.config := by rw [writeReg_some hw]
    rw [List.length_cons, runFor, step_writeReg ⟨hs, hp⟩ (writeReg_withPort hw _ _ (.ack :: s.responses)), ← hconfig]
    refine (ih rfl rfl (writeRegs_withPort hws _ _ _)).trans ?_
    rw [List.replicate_succ', List.append_assoc]
    rfl

/-- The accesses of one statement (30_encoding.md R85). -/
theorem hostOps_singleton (c : Config) (st : HostStmt) : hostOps c [st] = st.lines.map (ListingLine.toOp c) := by
  rw [hostOps, listing, List.flatMap_singleton]

theorem slice_low_limb (v : Nat) : slice v 63 0 = v % 2 ^ 64 := by
  rw [slice, pow_zero, Nat.div_one]

/-- The lines of `wr128` write the value's limbs (30_encoding.md R83). -/
theorem wr128_lines (d : Dest128) {v : Nat} (hv : v < 2 ^ 128) :
    (HostStmt.wr128 d v).lines = [.w d.regs.1.offset (limbs2 v).l0, .w d.regs.2.offset (limbs2 v).l1] := by
  have hhigh : slice v 127 64 = v / 2 ^ 64 := Nat.mod_eq_of_lt (by omega)
  rw [limbs2, hhigh, slice_low_limb]
  rfl

/-- The lines of `wr256 N` write the value's limbs (30_encoding.md R83). -/
theorem wr256N_lines (v : Nat) :
    (HostStmt.wr256N v).lines =
      [.w Reg.n0.offset (limbs4 v).l0, .w Reg.n1.offset (limbs4 v).l1, .w Reg.n2.offset (limbs4 v).l2,
        .w Reg.n3.offset (limbs4 v).l3] := by
  rw [limbs4, slice_low_limb]
  rfl

/-- A 256-bit value is its four limbs (40_limb_helpers.md R104). -/
theorem join4_limbs4 {v : Nat} (hv : v < 2 ^ 256) : join4 (limbs4 v) = v := by
  simp only [join4, limbs4, slice, BitVec.toNat_ofNat]
  omega

/-- The 128-bit operand `d` loaded with two limbs (30_encoding.md R77, R83). -/
def Dest128.load (d : Dest128) (x : Limbs2) (s : State) : State :=
  match d with
  | .a => { s with a := x }
  | .b => { s with b := x }
  | .dv => { s with dv := x }

namespace Dest128

variable (d : Dest128) (x : Limbs2) (s : State)

theorem writeRegs_load : writeRegs s [(d.regs.1, x.l0), (d.regs.2, x.l1)] = some (d.load x s) := by
  cases d <;> rfl

theorem operandA_load : operandA (d.load x s) = if d = .a then join2 x else operandA s := by
  cases d <;> rfl

theorem operandB_load : operandB (d.load x s) = if d = .b then join2 x else operandB s := by
  cases d <;> rfl

theorem divisorD_load : divisorD (d.load x s) = if d = .dv then join2 x else divisorD s := by
  cases d <;> rfl

/-- Loading a 128-bit operand leaves the rest of the core, and the host fault record. -/
theorem load_keeps :
    (d.load x s).hostFault = s.hostFault ∧ (d.load x s).n = s.n ∧ SameResults s (d.load x s) ∧
      SameInternal s (d.load x s) ∧ statusWord (d.load x s) = statusWord s := by
  cases d <;> exact ⟨rfl, rfl, ⟨rfl, rfl, rfl⟩, ⟨rfl, rfl, rfl, rfl, rfl, rfl, rfl, rfl⟩, rfl⟩

end Dest128

/-- The four limb writes of `wr256 N` load the dividend (30_encoding.md R83). -/
theorem writeRegs_dividend (s : State) (x : Limbs4) :
    writeRegs s [(.n0, x.l0), (.n1, x.l1), (.n2, x.l2), (.n3, x.l3)] = some { s with n := x } := rfl

/-- Settles O58: the statement's writes, in order, load the value's limbs. -/
theorem wr128AndWr256LoadTheirOperands : Obligations.Wr128AndWr256LoadTheirOperands := by
  unfold Obligations.Wr128AndWr256LoadTheirOperands
  constructor
  · intro s d v rest ops hwf hs hp
    have hv : v < 2 ^ 128 := of_decide_eq_true hwf
    rw [hostOps_singleton, wr128_lines d hv] at hp
    obtain ⟨hfault, hn, hresults, hinternal, hstatus⟩ := d.load_keeps (limbs2 v) s
    have ha := d.operandA_load (limbs2 v) s
    have hb := d.operandB_load (limbs2 v) s
    have hdv := d.divisorD_load (limbs2 v) s
    rw [join2_limbs2 hv] at ha hb hdv
    exact ⟨_, runFor_writes [(d.regs.1, (limbs2 v).l0), (d.regs.2, (limbs2 v).l1)] hs hp (d.writeRegs_load _ s), rfl, rfl,
      hfault, ha, hb, hdv, hn, hresults, hinternal, hstatus⟩
  · intro s v rest ops hwf hs hp
    rw [hostOps_singleton, wr256N_lines] at hp
    exact ⟨_, runFor_writes [(.n0, _), (.n1, _), (.n2, _), (.n3, _)] hs hp (writeRegs_dividend s (limbs4 v)), rfl, rfl, rfl,
      join4_limbs4 (of_decide_eq_true hwf), rfl, rfl, rfl, ⟨rfl, rfl, rfl⟩, ⟨rfl, rfl, rfl, rfl, rfl, rfl, rfl, rfl⟩, rfl⟩

end Sys2Proof.Machine

/-! SUPPORT. The limb helpers and their inverses (40_limb_helpers.md R101 to R106): taking a value apart into limbs and putting it
together again, and one bit of a limb, read and set. -/

namespace Sys2Proof.Machine

/-- Both parts of a 128-bit value are limbs (40_limb_helpers.md R101). -/
theorem hi_lt {v : Nat} (hv : v < 2 ^ 128) : hi v < 2 ^ 64 := by
  rw [hi]
  omega

theorem lo_lt (v : Nat) : lo v < 2 ^ 64 := Nat.mod_lt v (by decide)

/-- The two limbs that R137 writes are the parts of R101, narrowed to limbs. -/
theorem limbs2_eq_lo_hi (v : Nat) : limbs2 v = ⟨BitVec.ofNat 64 (lo v), BitVec.ofNat 64 (hi v)⟩ := by
  have hhigh : BitVec.ofNat 64 (slice v 127 64) = BitVec.ofNat 64 (hi v) :=
    BitVec.eq_of_toNat_eq (Nat.mod_mod _ _)
  rw [limbs2, slice_low_limb, hhigh]
  rfl

/-- Splitting undoes `join2` (40_limb_helpers.md R104). -/
theorem split_join2 (x : Limbs2) : split (join2 x) = (x.l1.toNat, x.l0.toNat) := by
  have h0 := x.l0.isLt
  have hhi : hi (join2 x) = x.l1.toNat := by
    unfold hi join2
    omega
  have hlo : lo (join2 x) = x.l0.toNat := by
    unfold lo join2
    omega
  rw [split, hhi, hlo]

theorem limbs2_join2 (x : Limbs2) : limbs2 (join2 x) = x := by
  obtain ⟨hhi, hlo⟩ := Prod.mk.inj (split_join2 x)
  rw [limbs2_eq_lo_hi, hhi, hlo, BitVec.ofNat_toNat, BitVec.ofNat_toNat, BitVec.setWidth_eq, BitVec.setWidth_eq]

/-- Taking an array's value apart gives its limbs back (40_limb_helpers.md R104), each by `limbOf_toNat`. -/
theorem limbs4_join4 (x : Limbs4) : limbs4 (join4 x) = x := by
  have hlimb (i : Fin 4) : BitVec.ofNat 64 (join4 x / 2 ^ (64 * i.val) % 2 ^ 64) = limbOf x i := by
    rw [← limbOf_toNat, BitVec.ofNat_toNat, BitVec.setWidth_eq]
  calc limbs4 (join4 x) = ⟨limbOf x 0, limbOf x 1, limbOf x 2, limbOf x 3⟩ := by
        rw [← hlimb 0, ← hlimb 1, ← hlimb 2, ← hlimb 3]
        rfl
    _ = x := rfl

theorem join2_injective : Function.Injective join2 := Function.LeftInverse.injective limbs2_join2

theorem join4_injective : Function.Injective join4 := Function.LeftInverse.injective limbs4_join4

/-- Settles O8: the round trips in both directions; what has a left inverse is injective. -/
theorem splitAndJoinAreInverse : Obligations.SplitAndJoinAreInverse := by
  unfold Obligations.SplitAndJoinAreInverse
  exact ⟨hi_lo, fun v hv => ⟨hi_lt hv, lo_lt v, rfl⟩, fun v hv => limbs2_eq_lo_hi v ▸ join2_limbs2 hv, fun _ => join4_limbs4,
    limbs4_join4, split_join2, fun _ _ h => join2_injective h, fun _ _ h => join4_injective h, rfl⟩

/-- The division of R105 reads the limb's bit. -/
theorem bitAt_eq_getLsbD (x : Word) (p : Nat) : bitAt x p = if x.getLsbD p then 1 else 0 :=
  (Nat.toNat_testBit x.toNat p).symm.trans (Bool.cond_eq_ite (x.getLsbD p) 1 0)

/-- The shift and mask that 40_limb_helpers.md R105 allows in place of the division. -/
theorem bitAt_eq_shift_and_mask (x : Word) (p : Nat) : bitAt x p = ((x >>> p) &&& 1#64).toNat := by
  have hmask : (1#64).toNat = 1 := rfl
  rw [bitAt, BitVec.toNat_and, BitVec.toNat_ushiftRight, hmask, Nat.and_one_is_mod, Nat.shiftRight_eq_div_pow]

/-- Settles O9: at every position, in the limb or above it. -/
theorem bitExtractionEqualsShiftAndMask : Obligations.BitExtractionEqualsShiftAndMask := by
  unfold Obligations.BitExtractionEqualsShiftAndMask
  exact ⟨fun x p _ => ⟨bitAt_eq_getLsbD x p, bitAt_eq_shift_and_mask x p⟩, by decide, by decide⟩

/-- `setbit` sets one bit and leaves the others (40_limb_helpers.md R106). -/
theorem bitAt_setBitAt (x : Word) (p : Nat) {j : Nat} (hj : j ≤ 63) :
    bitAt (setBitAt x p) j = if j = p then 1 else bitAt x j := by
  have hbit : (setBitAt x p).getLsbD j = (x.getLsbD j || decide (p = j)) := by
    rw [setBitAt, BitVec.getLsbD_or, BitVec.getLsbD_ofNat, Nat.testBit_two_pow, decide_eq_true (Nat.lt_succ_of_le hj),
      Bool.true_and]
  rw [bitAt_eq_getLsbD, bitAt_eq_getLsbD, hbit]
  by_cases h : j = p
  · simp [h]
  · simp [h, Ne.symm h]

/-- Settles O10: the number is that of `setBitAt_toNat`, so the sum is below `2^64` as every limb is. -/
theorem settingAClearBitAddsItsWeight : Obligations.SettingAClearBitAddsItsWeight := by
  unfold Obligations.SettingAClearBitAddsItsWeight
  refine ⟨fun x p hp hx => ?_, by decide⟩
  have hsum := setBitAt_toNat hp hx
  exact ⟨hsum, hsum ▸ (setBitAt x p).isLt, rfl, fun _ hj => bitAt_setBitAt x p hj⟩

end Sys2Proof.Machine

/-! SUPPORT. The multiplier (41_multiplier.md): the exact product, the bounds of its carry chain, and the command MUL from its
acceptance to its result. -/

namespace Sys2Proof.Machine

/-- The multiplier's limbs are those of the product: no other limb array weighs as much (41_multiplier.md R117, R118). -/
theorem mul128_eq_limbs4 {a b : Nat} (ha : a < 2 ^ 128) (hb : b < 2 ^ 128) : mul128 a b = limbs4 (a * b) := by
  rw [← join4_mul128 ha hb, limbs4_join4]

/-- Settles O12: the limbs' weights add up to the product, and `limb_3` stays a limb. -/
theorem multiplierIsExact : Obligations.MultiplierIsExact := by
  unfold Obligations.MultiplierIsExact
  exact fun a b ha hb => ⟨join4_mul128 ha hb, mul128_eq_limbs4 ha hb, decide_eq_true (limb3_lt ha hb)⟩

/-- A partial product and its two halves (41_multiplier.md R116, item 1). -/
theorem limb_product_bounds {x y : Nat} (hx : x < 2 ^ 64) (hy : y < 2 ^ 64) :
    x * y ≤ 2 ^ 128 - 2 ^ 65 + 1 ∧ hi (x * y) ≤ 2 ^ 64 - 2 ∧ lo (x * y) ≤ 2 ^ 64 - 1 := by
  have hxy : x * y ≤ (2 ^ 64 - 1) * (2 ^ 64 - 1) := Nat.mul_le_mul (Nat.le_sub_one_of_lt hx) (Nat.le_sub_one_of_lt hy)
  unfold hi lo
  omega

section CarryBounds

variable {a b : Nat} (ha : a < 2 ^ 128) (hb : b < 2 ^ 128)
include ha hb

theorem sum1_le : sum1 a b ≤ 3 * 2 ^ 64 - 4 := by
  obtain ⟨_, _, hlh⟩ := limb_product_bounds (lo_lt a) (hi_lt hb)
  obtain ⟨_, _, hhl⟩ := limb_product_bounds (hi_lt ha) (lo_lt b)
  obtain ⟨_, hll, _⟩ := limb_product_bounds (lo_lt a) (lo_lt b)
  simp only [sum1, partialProducts]
  omega

theorem carry1_le : carry1 a b ≤ 2 := by
  have hsum := sum1_le ha hb
  unfold carry1
  omega

theorem sum2_le : sum2 a b ≤ 3 * 2 ^ 64 - 3 := by
  obtain ⟨_, hlh, _⟩ := limb_product_bounds (lo_lt a) (hi_lt hb)
  obtain ⟨_, hhl, _⟩ := limb_product_bounds (hi_lt ha) (lo_lt b)
  obtain ⟨_, _, hhh⟩ := limb_product_bounds (hi_lt ha) (hi_lt hb)
  have hcarry := carry1_le ha hb
  simp only [sum2, partialProducts]
  omega

theorem carry2_le : carry2 a b ≤ 2 := by
  have hsum := sum2_le ha hb
  unfold carry2
  omega

end CarryBounds

/-- Each carry is reached, by both stages at once (41_multiplier.md R116; the pair for 2 is V-M14's). -/
theorem exists_both_carries_eq {c : Nat} (hc : c ≤ 2) :
    ∃ a b : Nat, a < 2 ^ 128 ∧ b < 2 ^ 128 ∧ carry1 a b = c ∧ carry2 a b = c := by
  match c with
  | 0 => exact ⟨0, 0, by decide⟩
  | 1 => exact ⟨2 ^ 128 - 1, 2 ^ 128 - 1, by decide⟩
  | 2 => exact ⟨0x5555555555555556fffffffffffffffc, 0xfffffffffffffffdfffffffffffffffd, by decide⟩

/-- Settles O13: the bounds follow the carry chain from the partial products on; three operand pairs reach the carries. -/
theorem multiplierCarryBounds : Obligations.MultiplierCarryBounds := by
  unfold Obligations.MultiplierCarryBounds
  refine ⟨fun a b ha hb => ?_, fun c hc => ?_, fun c hc => ?_⟩
  · have hs1 := sum1_le ha hb
    have hs2 := sum2_le ha hb
    refine ⟨?_, hs1, carry1_le ha hb, by omega, hs2, carry2_le ha hb, by omega, limb3_lt ha hb⟩
    simp only [List.forall_mem_cons, List.not_mem_nil, false_implies, implies_true, and_true]
    exact ⟨limb_product_bounds (lo_lt a) (lo_lt b), limb_product_bounds (lo_lt a) (hi_lt hb),
      limb_product_bounds (hi_lt ha) (lo_lt b), limb_product_bounds (hi_lt ha) (hi_lt hb)⟩
  · obtain ⟨a, b, ha, hb, h1, _⟩ := exists_both_carries_eq hc
    exact ⟨a, b, ha, hb, h1⟩
  · obtain ⟨a, b, ha, hb, _, h2⟩ := exists_both_carries_eq hc
    exact ⟨a, b, ha, hb, h2⟩

/-- The upper two limbs of a 128-bit value are 0. -/
theorem limbs4_of_lt {v : Nat} (hv : v < 2 ^ 128) :
    limbs4 v = ⟨BitVec.ofNat 64 (lo v), BitVec.ofNat 64 (hi v), 0, 0⟩ := by
  have h1 : slice v 127 64 = hi v := Nat.mod_eq_of_lt (hi_lt hv)
  have h2 : slice v 191 128 = 0 := by rw [slice, Nat.div_eq_of_lt hv, Nat.zero_mod]
  have h3 : slice v 255 192 = 0 := by rw [slice, Nat.div_eq_of_lt (hv.trans (by decide)), Nat.zero_mod]
  rw [limbs4, slice_low_limb, h1, h2, h3]
  rfl

theorem mul128_comm {a b : Nat} (ha : a < 2 ^ 128) (hb : b < 2 ^ 128) : mul128 a b = mul128 b a := by
  rw [mul128_eq_limbs4 ha hb, mul128_eq_limbs4 hb ha, Nat.mul_comm]

/-- Settles O14: 0 * b and 1 * b by the limbs of the product, the boundary products by evaluation. -/
theorem multiplierCornerCases : Obligations.MultiplierCornerCases := by
  unfold Obligations.MultiplierCornerCases
  refine ⟨fun b hb => ⟨?_, ?_⟩, by decide, by decide, by decide, fun _ _ => mul128_comm⟩
  · rw [mul128_eq_limbs4 (by decide) hb, Nat.zero_mul]
    rfl
  · rw [mul128_eq_limbs4 (by decide) hb, Nat.one_mul, limbs4_of_lt hb]

/-- What the latches take is the two registers side by side, the high limb first (41_multiplier.md R113). -/
theorem ofNat_join2 (x : Limbs2) : BitVec.ofNat 128 (join2 x) = x.l1 ++ x.l0 := by
  apply BitVec.eq_of_toNat_eq
  rw [latched_toNat, BitVec.toNat_append, ← Nat.shiftLeft_add_eq_or_of_lt x.l0.isLt, Nat.shiftLeft_eq, join2]

/-- An idle core accepts MUL whatever its divisor registers hold (30_encoding.md R75, 41_multiplier.md R113). -/
theorem exec_mul_of_idle {s : State} (h : s.phase = .idle) : exec .mul s = .next (mulAccept (setDone false s)) :=
  congrArg Host.Outcome.next (dispatchCompute_accept h nofun)

/-- Settles O17: MUL is accepted, and the numbers it latches are the concatenated registers. -/
theorem mulIsAcceptedWhenIdle : Obligations.MulIsAcceptedWhenIdle := by
  unfold Obligations.MulIsAcceptedWhenIdle
  intro s h
  rw [exec_mul_of_idle h, ← ofNat_join2 s.a, ← ofNat_join2 s.b]
  rfl

/-- The core step of phase MUL_ONLY (41_multiplier.md R114). -/
theorem coreStep_of_mulOnly {s : State} (h : s.phase = .mulOnly) :
    coreStep s = .next { s with p := mul128 s.opa.toNat s.opb.toNat, done := true, phase := .idle } := by
  simp only [coreStep, h, mulStepOnly_eq]

/-- Settles O27: the multiply step writes the multiplier's limbs, which are those of the product of two 128-bit latches. -/
theorem multiplyStepWritesTheProduct : Obligations.MultiplyStepWritesTheProduct := by
  unfold Obligations.MultiplyStepWritesTheProduct
  intro s h
  rw [coreStep_of_mulOnly h, mul128_eq_limbs4 s.opa.isLt s.opb.isLt]

/-- Settles O31: acceptance, then the multiply step on the latched operands; neither writes anything else. -/
theorem mulCompletesAfterOneCoreStep : Obligations.MulCompletesAfterOneCoreStep := by
  unfold Obligations.MulCompletesAfterOneCoreStep
  intro s h
  have hproduct : join4 (mul128 (BitVec.ofNat 128 (join2 s.a)).toNat (BitVec.ofNat 128 (join2 s.b)).toNat) =
      join2 s.a * join2 s.b := by
    rw [latched_toNat, latched_toNat, join4_mul128 (join2_lt s.a) (join2_lt s.b)]
  exact ⟨mulAccept (setDone false s), _, exec_mul_of_idle h, rfl, coreRun_succ (coreStep_of_mulOnly rfl) 0, rfl, rfl, hproduct,
    ⟨rfl, rfl, rfl, rfl⟩, rfl, rfl, rfl, rfl, rfl, rfl, rfl, rfl⟩

end Sys2Proof.Machine

/-! SUPPORT. The divider (42_divider.md): one division step from any state, a division from any of its iterations to its results,
the commands DIV and MULDIV from their acceptance on, and their results under any schedule. -/

namespace Sys2Proof.Machine

/-- Settles O11: limb and position are those of R132 by definition; what the bit is and what it weighs is limb arithmetic. -/
theorem iterationReadsTheDividendFromTheTop : Obligations.IterationReadsTheDividendFromTheTop := by
  unfold Obligations.IterationReadsTheDividendFromTheTop
  exact fun k x hk => ⟨rfl, rfl, bitAt_iteration x hk, join4_setBit_iteration x hk⟩

/-- An idle core accepts DIV with a divisor that is not 0 (30_encoding.md R75, 42_divider.md R133). -/
theorem exec_div_of_idle {s : State} (h : s.phase = .idle) (hd : join2 s.dv ≠ 0) :
    exec .div s = .next (divAccept (setDone false s)) :=
  congrArg Host.Outcome.next (dispatchCompute_accept h fun _ => hd)

/-- An idle core accepts MULDIV with a divisor that is not 0 (30_encoding.md R75, 42_divider.md R134). -/
theorem exec_muldiv_of_idle {s : State} (h : s.phase = .idle) (hd : join2 s.dv ≠ 0) :
    exec .muldiv s = .next (muldivAccept (setDone false s)) :=
  congrArg Host.Outcome.next (dispatchCompute_accept h fun _ => hd)

theorem join2_ne_zero_of_append {x : Limbs2} (h : x.l1 ++ x.l0 ≠ 0#128) : join2 x ≠ 0 := by
  intro hz
  rw [← ofNat_join2, hz] at h
  exact h rfl

/-- Settles O18: DIV is accepted, and the number it latches as divisor is the concatenated registers. -/
theorem divIsAcceptedWhenIdle : Obligations.DivIsAcceptedWhenIdle := by
  unfold Obligations.DivIsAcceptedWhenIdle
  intro s hidle hd
  rw [exec_div_of_idle hidle (join2_ne_zero_of_append hd), ← ofNat_join2 s.dv]
  rfl

/-- Settles O19: MULDIV is accepted, and the numbers it latches are the concatenated registers. -/
theorem muldivIsAcceptedWhenIdle : Obligations.MuldivIsAcceptedWhenIdle := by
  unfold Obligations.MuldivIsAcceptedWhenIdle
  intro s hidle hd
  rw [exec_muldiv_of_idle hidle (join2_ne_zero_of_append hd), ← ofNat_join2 s.a, ← ofNat_join2 s.b, ← ofNat_join2 s.dv]
  rfl

/-- Settles O21: both commands make the same checks, and recording an error writes ERR only. -/
theorem zeroDivisorIsRejected : Obligations.ZeroDivisorIsRejected := by
  unfold Obligations.ZeroDivisorIsRejected
  intro s i hidle h0 h1 hi
  have hd : divisorD s = 0 := by
    rw [divisorD, join2, h0, h1]
    rfl
  have hreject (accept : State → State) : dispatchCompute true accept s =
      setErr (if s.err = 0 then 1 else s.err) (setDone false s) :=
    (dispatchCompute_zero hidle hd).trans (raise_eq_setErr .invalidDivisor (setDone false s))
  rcases hi with rfl | rfl
  · exact congrArg Host.Outcome.next (hreject divAccept)
  · exact congrArg Host.Outcome.next (hreject muldivAccept)

/-- The core step of phase MUL_THEN_DIV (42_divider.md R135). -/
theorem coreStep_of_mulThenDiv {s : State} (h : s.phase = .mulThenDiv) :
    coreStep s = .next
      { s with p := mul128 s.opa.toNat s.opb.toNat, dvd := mul128 s.opa.toNat s.opb.toNat, phase := .div } := by
  simp only [coreStep, h, mulStepThenDiv_eq]

/-- Settles O28: the multiply step writes the multiplier's limbs, which are those of the product of two 128-bit latches. -/
theorem muldivMultiplyStepStartsTheDivision : Obligations.MuldivMultiplyStepStartsTheDivision := by
  unfold Obligations.MuldivMultiplyStepStartsTheDivision
  intro s h
  rw [coreStep_of_mulThenDiv h, mul128_eq_limbs4 s.opa.isLt s.opb.isLt]

/-- What a failed defensive check writes (42_divider.md R137, 60_exceptions.md R163). -/
theorem abandonCommand_eq (s : State) :
    abandonCommand s = { s with err := if s.err = 0 then 3 else s.err, phase := .idle } := by
  rw [abandonCommand, raise_eq_setErr]
  rfl

section DivisionStep

variable {s : State}

theorem coreStep_of_div (hp : s.phase = .div) : coreStep s = divIteration s := by
  simp only [coreStep, hp]

/-- The core step of phase DIV before the last iteration (42_divider.md R136). -/
theorem coreStep_of_iteration (hp : s.phase = .div) (hk : s.cnt.toNat < 255) : coreStep s = .next (iterated s) := by
  rw [coreStep_of_div hp]
  rcases divIteration_cases s with ⟨hout, _⟩ | ⟨hlast, _⟩ | ⟨_, e⟩
  · omega
  · omega
  · exact e

/-- The core step of the last iteration (42_divider.md R136, R137). -/
theorem coreStep_of_lastIteration (hp : s.phase = .div) (hk : s.cnt.toNat = 255) :
    coreStep s = .next (divFinish (nextRem s) (nextQuo s) (iterated s)) := by
  rw [coreStep_of_div hp]
  rcases divIteration_cases s with ⟨hout, _⟩ | ⟨_, e⟩ | ⟨hlt, _⟩
  · omega
  · exact e
  · omega

/-- A division step has no effect exactly where its counter is out of range (log 8). -/
theorem coreStep_eq_fault_iff (hp : s.phase = .div) :
    coreStep s = .fault .divisionCounterOutOfRange ↔ 255 < s.cnt.toNat := by
  rw [coreStep_of_div hp]
  rcases divIteration_cases s with ⟨hout, e⟩ | ⟨hk, e⟩ | ⟨hk, e⟩ <;> rw [e]
  · exact iff_of_true rfl hout
  · exact iff_of_false nofun (by omega)
  · exact iff_of_false nofun (by omega)

/-- `t` of 42_divider.md R136, with the dividend bit of R132. -/
theorem shiftedIn_eq (hk : s.cnt.toNat ≤ 255) :
    shiftedIn s = 2 * s.racc.toNat + join4 s.dvd / 2 ^ (255 - s.cnt.toNat) % 2 := by
  rw [shiftedIn, bitAt_iteration s.dvd hk]

/-- One subtraction brings the shifted accumulator below the divisor (42_divider.md R139). -/
theorem nextRem_lt (h : s.racc.toNat < s.dvr.toNat) : nextRem s < s.dvr.toNat := by
  have hbit : bitAt (limbOf s.dvd (iterLimb s.cnt.toNat)) (iterPos s.cnt.toNat) < 2 := Nat.mod_lt _ Nat.two_pos
  unfold nextRem shiftedIn
  split <;> omega

/-- `q'` of 42_divider.md R136 where the quotient bit is still clear (R138). -/
theorem join4_nextQuo (hk : s.cnt.toNat ≤ 255) (hclear : join4 s.qacc / 2 ^ (255 - s.cnt.toNat) % 2 = 0) :
    join4 (nextQuo s) = join4 s.qacc + (if s.dvr.toNat ≤ shiftedIn s then 2 ^ (255 - s.cnt.toNat) else 0) := by
  unfold nextQuo
  split
  · exact join4_setBit_iteration s.qacc hk ((bitAt_iteration s.qacc hk).trans hclear)
  · exact (Nat.add_zero _).symm

theorem iterated_cnt (hk : s.cnt.toNat ≤ 255) : (iterated s).cnt.toNat = s.cnt.toNat + 1 :=
  Nat.mod_eq_of_lt (show s.cnt.toNat + 1 < 2 ^ 9 by omega)

/-- The accumulator holds every remainder below the divisor (42_divider.md R139). -/
theorem iterated_racc (h : nextRem s < s.dvr.toNat) : (iterated s).racc.toNat = nextRem s :=
  raccOf_toNat (h.trans (s.dvr.isLt.trans (by decide)))

end DivisionStep

/-- Settles O29: the iteration's `t`, `r'` and `q'`, with the bits of R132. -/
theorem divisionIterationShiftsAndSubtracts : Obligations.DivisionIterationShiftsAndSubtracts := by
  unfold Obligations.DivisionIterationShiftsAndSubtracts
  intro s t hp hk hr hclear ht
  obtain rfl : t = shiftedIn s := ht.trans (shiftedIn_eq hk.le).symm
  have hrem := nextRem_lt hr
  have hracc := iterated_racc hrem
  exact ⟨iterated s, coreStep_of_iteration hp hk, rfl, iterated_cnt hk.le, hracc, hracc.trans_lt hrem,
    join4_nextQuo hk.le hclear⟩

/-- Settles O30: the remainder is below the divisor, so the defensive check passes and the results are written. -/
theorem lastIterationWritesQuotientAndRemainder : Obligations.LastIterationWritesQuotientAndRemainder := by
  unfold Obligations.LastIterationWritesQuotientAndRemainder
  intro s t hp hk hr hclear ht
  have hle := hk.le
  have hlow (v : Nat) : v / 2 ^ (255 - s.cnt.toNat) = v := by rw [hk]; exact Nat.div_one v
  have hshift := shiftedIn_eq hle
  have hquo := join4_nextQuo hle (by rwa [hlow])
  rw [hlow, ← ht] at hshift
  rw [hshift, hk] at hquo
  have hrem := nextRem_lt hr
  have hjoin : join2 (limbs2 (nextRem s)) = nextRem s := join2_limbs2 (hrem.trans s.dvr.isLt)
  have hstep : coreStep s = .next
      { iterated s with q := nextQuo s, rm := limbs2 (nextRem s), done := true, phase := .idle } :=
    (coreStep_of_lastIteration hp hk).trans (congrArg _ (if_neg (Nat.not_le_of_lt hrem)))
  refine ⟨_, hstep, rfl, (iterated_cnt hle).trans (congrArg _ hk), rfl, hjoin.trans (iterated_racc hrem).symm, hquo, ?_⟩
  rw [hjoin, nextRem, hshift]

/-- Settles O39: the step before the last iteration, and the two ends of the last one. -/
theorem divisionStepOutsideItsRangeFaults : Obligations.DivisionStepOutsideItsRangeFaults := by
  unfold Obligations.DivisionStepOutsideItsRangeFaults
  intro s hp
  refine ⟨coreStep_eq_fault_iff hp, fun t r hk ht hr => ?_⟩
  obtain rfl : t = shiftedIn s := ht.trans (shiftedIn_eq hk).symm
  obtain rfl : r = nextRem s := hr
  have hcnt := iterated_cnt hk
  have hracc : nextRem s < 2 ^ 129 → (iterated s).racc.toNat = nextRem s := raccOf_toNat
  by_cases hlast : s.cnt.toNat = 255
  · have hstep := coreStep_of_lastIteration hp hlast
    rcases divFinish_cases (nextRem s) (nextQuo s) (iterated s) with ⟨hle, e⟩ | ⟨hlt, e⟩ <;> rw [e] at hstep
    · rw [abandonCommand_eq] at hstep
      exact ⟨_, iterated s, hstep, rfl, hcnt, hracc, fun h => absurd hlast h.ne,
        fun _ h => absurd h (Nat.not_lt_of_le hle), fun _ _ => rfl⟩
    · exact ⟨_, iterated s, hstep, rfl, hcnt, hracc, fun h => absurd hlast h.ne, fun _ _ => rfl,
        fun _ h => absurd hlt (Nat.not_lt_of_le h)⟩
  · exact ⟨_, iterated s, coreStep_of_iteration hp (by omega), rfl, hcnt, hracc, fun _ => rfl,
      fun h => absurd h hlast, fun h => absurd h hlast⟩

/-- Exactly `steps` core steps lead from `u` to `t`, through busy states, and `t` holds the results of `n` by `d`
(42_divider.md R140, R143). -/
structure Divides (n d steps : Nat) (u t : State) : Prop where
  busy : ∀ k < steps, ∃ v, coreRun k u = .next v ∧ v.phase ≠ .idle
  run : coreRun steps u = .next t
  quotient : join4 t.q = n / d
  remainder : join2 t.rm = n % d

/-- A core step of a busy core before a division is one more step of it. -/
theorem Divides.succ {n d steps : Nat} {u v t : State} (h : Divides n d steps v t) (hbusy : u.phase ≠ .idle)
    (hstep : coreStep u = .next v) : Divides n d (steps + 1) u t where
  busy
    | 0, _ => ⟨u, rfl, hbusy⟩
    | k + 1, hk => by
      rw [coreRun_succ hstep]
      exact h.busy k (Nat.lt_of_succ_lt_succ hk)
  run := (coreRun_succ hstep steps).trans h.run
  quotient := h.quotient
  remainder := h.remainder

/-- `t` is complete, and what a dividing command must not write is as in `s` (42_divider.md R133 to R137). -/
def CompleteFrom (s t : State) : Prop :=
  t.phase = .idle ∧ t.done = true ∧ SameOperands s t ∧ t.err = s.err ∧ SameSurroundings s t

/-- A division under way divides in the steps its counter leaves, by induction on them; it leaves P (42_divider.md R140, R143). -/
theorem divides_of_dividing {u : State} (h : Dividing u) (hp : u.phase = .div) {m : Nat} (hm : u.cnt.toNat + m = 255) :
    ∃ t, Divides (join4 u.dvd) u.dvr.toNat (m + 1) u t ∧ t.p = u.p ∧ CompleteFrom u t := by
  induction m generalizing u with
  | zero =>
    have hstep := coreStep_of_lastIteration hp hm
    rw [h.divFinish_eq] at hstep
    obtain ⟨hquo, hrem⟩ := h.last hm
    have hdone : Divides (join4 u.dvd) u.dvr.toNat 0
        { iterated u with q := nextQuo u, rm := limbs2 (nextRem u), done := true, phase := .idle } _ :=
      ⟨nofun, rfl, hquo, hrem⟩
    exact ⟨_, hdone.succ (by simp [hp]) hstep, rfl, rfl, rfl, ⟨rfl, rfl, rfl, rfl⟩, rfl, rfl, rfl, rfl, rfl, rfl⟩
  | succ m ih =>
    have hk : u.cnt.toNat < 255 := by omega
    have hcnt := h.iterated_cnt
    obtain ⟨t, hdiv, hkept⟩ := ih (h.iterated hp hk) hp (by omega)
    exact ⟨t, hdiv.succ (by simp [hp]) (coreStep_of_iteration hp hk), hkept⟩

/-- DIV from its acceptance to its results (42_divider.md R133, R143). -/
theorem exec_div_divides {s : State} (hidle : s.phase = .idle) (hd : join2 s.dv ≠ 0) :
    ∃ s₁ t, exec .div s = .next s₁ ∧ Divides (join4 s.n) (join2 s.dv) 256 s₁ t ∧ t.p = s.p ∧ CompleteFrom s t := by
  have hdvr : (divAccept (setDone false s)).dvr.toNat = join2 s.dv := latchedDivisor_toNat s
  have hdividing : Dividing (divAccept (setDone false s)) :=
    dividing_of_cleared (hdvr ▸ Nat.pos_of_ne_zero hd) rfl rfl rfl rfl
  obtain ⟨t, hdiv, hkept⟩ := divides_of_dividing hdividing rfl (m := 255) rfl
  rw [hdvr] at hdiv
  exact ⟨_, t, exec_div_of_idle hidle hd, hdiv, hkept⟩

/-- A pending MULDIV multiplies, then divides the product (42_divider.md R135, R143). -/
theorem divides_of_pending {u : State} (hp : u.phase = .mulThenDiv) (hpos : 0 < u.dvr.toNat)
    (hr : u.racc = 0) (hq : u.qacc = Limbs4.zero) (hc : u.cnt = 0) :
    ∃ t, Divides (u.opa.toNat * u.opb.toNat) u.dvr.toNat 257 u t ∧ join4 t.p = u.opa.toNat * u.opb.toNat ∧
      CompleteFrom u t := by
  have hstep := coreStep_of_mulThenDiv hp
  have hdividing : Dividing
      { u with p := mul128 u.opa.toNat u.opb.toNat, dvd := mul128 u.opa.toNat u.opb.toNat, phase := .div } :=
    dividing_of_cleared hpos rfl hr hq hc
  obtain ⟨t, hdiv, hprod, hkept⟩ := divides_of_dividing hdividing rfl (m := 255) (by simp [hc])
  rw [← join4_mul128 u.opa.isLt u.opb.isLt]
  exact ⟨t, hdiv.succ (by simp [hp]) hstep, congrArg join4 hprod, hkept⟩

/-- MULDIV from its acceptance to its results (42_divider.md R134, R143). -/
theorem exec_muldiv_divides {s : State} (hidle : s.phase = .idle) (hd : join2 s.dv ≠ 0) :
    ∃ s₁ t, exec .muldiv s = .next s₁ ∧ Divides (join2 s.a * join2 s.b) (join2 s.dv) 257 s₁ t ∧
      join4 t.p = join2 s.a * join2 s.b ∧ CompleteFrom s t := by
  have hdvr : (muldivAccept (setDone false s)).dvr.toNat = join2 s.dv := latchedDivisor_toNat s
  have hpending := divides_of_pending (u := muldivAccept (setDone false s)) rfl (hdvr ▸ Nat.pos_of_ne_zero hd) rfl rfl rfl
  rw [hdvr, show (muldivAccept (setDone false s)).opa.toNat = join2 s.a from latched_toNat s.a,
    show (muldivAccept (setDone false s)).opb.toNat = join2 s.b from latched_toNat s.b] at hpending
  obtain ⟨t, hdiv, hprod, hkept⟩ := hpending
  exact ⟨_, t, exec_muldiv_of_idle hidle hd, hdiv, hprod, hkept⟩

/-- Settles O32: both commands divide, DIV the dividend registers and MULDIV the product it wrote to P. -/
theorem dividingCommandsCompleteOnTheirLastCoreStep : Obligations.DividingCommandsCompleteOnTheirLastCoreStep := by
  unfold Obligations.DividingCommandsCompleteOnTheirLastCoreStep
  intro i steps n s hidle hd hcommand
  have hrun : ∃ s₁ t, exec i s = .next s₁ ∧ Divides n (join2 s.dv) steps s₁ t ∧
      (i = .div → t.p = s.p) ∧ (i = .muldiv → join4 t.p = n) ∧ CompleteFrom s t := by
    rcases hcommand with ⟨rfl, rfl, rfl⟩ | ⟨rfl, rfl, rfl⟩
    · obtain ⟨s₁, t, hexec, hdiv, hp, hkept⟩ := exec_div_divides hidle hd
      exact ⟨s₁, t, hexec, hdiv, fun _ => hp, nofun, hkept⟩
    · obtain ⟨s₁, t, hexec, hdiv, hp, hkept⟩ := exec_muldiv_divides hidle hd
      exact ⟨s₁, t, hexec, hdiv, nofun, fun _ => hp, hkept⟩
  obtain ⟨s₁, t, hexec, hdiv, hpdiv, hpmuldiv, hphase, hdone, hoperands, herr, hsurroundings⟩ := hrun
  exact ⟨s₁, t, hexec, hdiv.busy, hdiv.run, hphase, hdone, hdiv.quotient, hdiv.remainder, hpdiv, hpmuldiv, hoperands, herr,
    hsurroundings⟩

/-- Settles O33: each case is the quotient and the remainder of DIV's contract, as naturals. -/
theorem divisionCornerCases : Obligations.DivisionCornerCases := by
  unfold Obligations.DivisionCornerCases
  rintro s n d hidle rfl rfl hd
  obtain ⟨s₁, t, hexec, hdiv, _⟩ := exec_div_divides hidle hd
  have hpos := Nat.pos_of_ne_zero hd
  refine ⟨s₁, t, hexec, hdiv.run, fun hn => ?_, fun hone => ?_, fun hlt => ?_, fun heq => ?_, fun hn hmax => ?_,
    fun hn htwo => ?_⟩
  · rw [hdiv.quotient, hdiv.remainder, hn]
    exact ⟨Nat.zero_div _, Nat.zero_mod _⟩
  · rw [hdiv.quotient, hdiv.remainder, hone]
    exact ⟨Nat.div_one _, Nat.mod_one _⟩
  · rw [hdiv.quotient, hdiv.remainder]
    exact ⟨Nat.div_eq_of_lt hlt, Nat.mod_eq_of_lt hlt⟩
  · rw [hdiv.quotient, hdiv.remainder, heq]
    exact ⟨Nat.div_self hpos, Nat.mod_self _⟩
  · rw [← join4_injective.eq_iff, hdiv.quotient, hdiv.remainder, hn, hmax]
    exact ⟨rfl, rfl⟩
  · rw [hdiv.quotient, hdiv.remainder, hn, htwo]
    exact ⟨rfl, rfl⟩

/-- The sequencer leaves the schedule. -/
theorem CoreEffect.keepsSchedule {s t : State} (h : CoreEffect s t) : t.schedule = s.schedule := by
  cases h with
  | lastIteration =>
    rcases divFinish_cases (nextRem s) (nextQuo s) (iterated s) with ⟨_, e⟩ | ⟨_, e⟩ <;> rw [e]
    · exact raise_schedule _ _
    · rfl
  | _ => rfl

theorem performAccess_schedule {acc : Access} {s t : State} (h : performAccess acc s = .next t) :
    t.schedule = s.schedule := by
  rcases performAccess_cases acc s with e | ⟨v, e⟩ | e | ⟨r, v, u, _, hw, e⟩ | ⟨w, u, _, hc, e⟩ <;> cases e.symm.trans h
  · rfl
  · rfl
  · rfl
  · rw [writeReg_some hw]
    rfl
  · obtain ⟨_, _, _, hschedule, _⟩ := (cmdWrite_effect hc).keepsSurroundings
    exact hschedule

theorem hostStep_schedule {s t : State} (h : hostStep s = .next t) : t.schedule = s.schedule := by
  rcases hostStep_cases s with ⟨_, e⟩ | ⟨_, _, _, e⟩ | ⟨_, _, _, e⟩ <;> rw [e] at h
  · cases h
    rfl
  · exact (performAccess_schedule h).trans rfl
  · exact (performAccess_schedule h).trans rfl

/-- A step takes its own turn from the schedule and no other (00_scope.md R15, log 1). -/
theorem step_schedule {s t : State} (h : step s = .next t) : t.schedule = s.schedule.tail := by
  rcases step_cases s with ⟨hs, e⟩ | ⟨_, hs, e⟩ | ⟨_, hs, e⟩ | ⟨_, hs, e⟩ <;> rw [e] at h <;> rw [hs]
  · exact (coreStep_effect h).keepsSchedule.trans hs
  · exact hostStep_schedule h
  · exact (coreStep_effect h).keepsSchedule
  · cases h
    rfl

/-- Q and RM are written together with the end of the command (42_divider.md R137). -/
theorem CoreEffect.sameQuotient_of_busy {s t : State} (h : CoreEffect s t) (hbusy : t.phase ≠ .idle) :
    t.q = s.q ∧ t.rm = s.rm := by
  cases h with
  | lastIteration => exact absurd (divFinish_phase _ _ _) hbusy
  | _ => exact ⟨rfl, rfl⟩

/-- The core step that ends a command in progress sets DONE (10_state.md R30). -/
theorem CommandProgress.done_of_ends {i : Instr} {s u t : State} (h : CommandProgress i s u) (hcore : CoreEffect u t)
    (hbusy : u.phase ≠ .idle) (hidle : t.phase = .idle) : t.done = true := by
  cases hcore with
  | idle hp => exact absurd hp hbusy
  | mulOnly => rfl
  | mulThenDiv => cases hidle
  | iteration hp => exact nomatch hp.symm.trans hidle
  | lastIteration hp =>
    cases h with
    | dividing _ _ hdiv => rw [hdiv.divFinish_eq]
    | mulOnly hq | mulThenDiv hq | complete hq => exact nomatch hp.symm.trans hq

/-- A command accepted in `s` is in progress, with Q and RM as they were then (20_memory.md R66). -/
structure Pending (i : Instr) (s u : State) : Prop where
  progress : CommandProgress i s u
  busy : u.phase ≠ .idle
  quotient : u.q = s.q
  remainder : u.rm = s.rm

/-- A step that is no reset leaves a pending command pending, or completes it (42_divider.md R145). -/
theorem Pending.step {i : Instr} {s u t : State} (h : Pending i s u) (hreset : ¬ ResetTurn u) (hstep : step u = .next t) :
    Pending i s t ∨ (t.phase = .idle ∧ t.done = true ∧ ResultsHold i s t) := by
  have haccept : ¬ AcceptsNext u := fun ⟨hidle, _⟩ => h.busy hidle
  have hprogress := h.progress.step ⟨hreset, haccept⟩ hstep
  rcases (step_effect hstep).same_or_core hreset haccept with ⟨⟨hphase, _⟩, _, hq, hrm⟩ | ⟨rest, _, hcore⟩
  · exact .inl ⟨hprogress, hphase ▸ h.busy, hq.trans h.quotient, hrm.trans h.remainder⟩
  · by_cases hidle : t.phase = .idle
    · have htaken : CommandProgress i s { u with schedule := rest } :=
        h.progress.congr ⟨rfl, rfl, rfl, rfl, rfl, rfl, rfl, rfl⟩ ⟨rfl, rfl, rfl⟩
      cases hprogress with
      | complete _ hres => exact .inr ⟨hidle, htaken.done_of_ends hcore h.busy hidle, hres⟩
      | mulOnly hp | mulThenDiv hp | dividing hp => exact nomatch hp.symm.trans hidle
    · obtain ⟨hq, hrm⟩ := hcore.sameQuotient_of_busy hidle
      exact .inl ⟨hprogress, hidle, hq.trans h.quotient, hrm.trans h.remainder⟩

theorem runFor_succ {s t : State} (h : step s = .next t) (k : Nat) : runFor (k + 1) s = runFor k t := by
  rw [runFor, h]

/-- A run with a first step has a state after it. -/
theorem exists_step_of_runFor_succ {k : Nat} {s t : State} (h : runFor (k + 1) s = .next t) :
    ∃ u, step s = .next u ∧ runFor k u = .next t := by
  rw [runFor] at h
  split at h
  · exact ⟨_, ‹_›, h⟩
  · cases h
  · cases h

/-- A pending command is pending after any run without a reset, or it was complete after a step of it (42_divider.md R145). -/
theorem pending_or_complete_of_runFor {i : Instr} {k : Nat} {s u t : State} (h : Pending i s u)
    (hsched : Agent.reset ∉ u.schedule) (hrun : runFor k u = .next t) :
    Pending i s t ∨ ∃ (j : Nat) (v : State), j ≤ k ∧ runFor j u = .next v ∧ v.phase = .idle ∧ v.done = true ∧
      ResultsHold i s v := by
  induction k generalizing u with
  | zero =>
    cases hrun
    exact .inl h
  | succ k ih =>
    obtain ⟨v, hstep, hrest⟩ := exists_step_of_runFor_succ hrun
    have hreset : ¬ ResetTurn u := fun hturn => hsched (List.mem_of_head? hturn)
    have hvsched : Agent.reset ∉ v.schedule := fun hmem => hsched (List.mem_of_mem_tail (step_schedule hstep ▸ hmem))
    rcases h.step hreset hstep with hv | hcomplete
    · refine (ih hv hvsched hrest).imp_right ?_
      rintro ⟨j, w, hj, hw, hres⟩
      exact ⟨j + 1, w, Nat.succ_le_succ hj, (runFor_succ hstep j).trans hw, hres⟩
    · exact .inr ⟨1, v, Nat.le_add_left 1 k, runFor_succ hstep 0, hcomplete⟩

/-- An accepted dividing command is pending (42_divider.md R133, R134). -/
theorem pending_of_accepted {i : Instr} {s t : State} (hidle : s.phase = .idle) (hi : i = .div ∨ i = .muldiv)
    (hd : join2 s.dv ≠ 0) (h : exec i s = .next t) : Pending i s t := by
  have hprogress := commandProgress_of_accepted hidle (.inr ⟨hi, hd⟩) h
  rcases hi with rfl | rfl
  · cases (exec_div_of_idle hidle hd).symm.trans h
    exact ⟨hprogress, nofun, rfl, rfl⟩
  · cases (exec_muldiv_of_idle hidle hd).symm.trans h
    exact ⟨hprogress, nofun, rfl, rfl⟩

/-- Settles O41: the command stays pending until the step that completes it. -/
theorem divisionResultIsScheduleIndependent : Obligations.DivisionResultIsScheduleIndependent := by
  unfold Obligations.DivisionResultIsScheduleIndependent
  intro i n k s s₁ t hidle hd hcommand hexec hsched hrun
  have hpending : Pending i s s₁ := pending_of_accepted hidle (hcommand.imp And.left And.left) hd hexec
  refine (pending_or_complete_of_runFor hpending hsched hrun).imp (fun h => ⟨h.busy, h.quotient, h.remainder⟩) ?_
  rintro ⟨j, u, hj, hu, huidle, hdone, _, hdiv, hmuldiv⟩
  refine ⟨j, u, hj, hu, huidle, hdone, ?_⟩
  rcases hcommand with ⟨rfl, rfl⟩ | ⟨rfl, rfl⟩
  · exact hdiv rfl
  · exact hmuldiv rfl

end Sys2Proof.Machine

/-! SUPPORT. The control commands and the life of a recorded error (43_control.md R150 and R151, 60_exceptions.md R163, R168). -/

namespace Sys2Proof.Machine

/-- CLEAR is `clear()` after DONE := 0 (43_control.md R151). -/
theorem CommandEffect.eq_of_clear {s t : State} (h : CommandEffect s (.command .clear) t) :
    t = clearErr (setDone false s) := by
  cases h with
  | clear => rfl
  | rejected _ _ _ hclear => exact absurd rfl hclear

/-- The defensive check of the last iteration records its error only where none is held (60_exceptions.md R163). -/
theorem divFinish_keepsHeldErr (r' : Nat) (q' : Limbs4) {s : State} (he : s.err ≠ 0) : (divFinish r' q' s).err = s.err := by
  rcases divFinish_cases r' q' s with ⟨_, e⟩ | ⟨_, e⟩ <;> rw [e]
  exact (raise_err .invariantViolation s).trans (if_neg he)

/-- The sequencer leaves a held error (60_exceptions.md R163, R168). -/
theorem CoreEffect.keepsHeldErr {s t : State} (h : CoreEffect s t) (he : s.err ≠ 0) : t.err = s.err := by
  cases h with
  | lastIteration => exact divFinish_keepsHeldErr (nextRem s) (nextQuo s) (s := iterated s) he
  | _ => rfl

/-- Settles O54: the sequencer, the port and every command but CLEAR leave a held error; CLEAR and a reset make ERR 0. -/
theorem errClearsOnlyByClearOrReset : Obligations.ErrClearsOnlyByClearOrReset := by
  unfold Obligations.ErrClearsOnlyByClearOrReset
  intro s t h he hne
  cases step_effect h with
  | core _ _ _ h => exact absurd (h.keepsHeldErr he) hne
  | port => exact absurd rfl hne
  | operand _ _ _ _ _ _ hw =>
    rw [writeReg_some hw] at hne
    exact absurd rfl hne
  | command rest ops w _ hacc h =>
    by_cases hw : decode w = .command .clear
    · rw [hw] at h
      have hword : w = 4 := decode_eq_command_iff.mp hw
      rw [hword] at hacc
      exact ⟨congrArg State.err h.eq_of_clear, .inr ⟨rest, ops, hacc⟩⟩
    · exact absurd (h.keepsHeldErr hw he) hne
  | reset _ hturn => exact ⟨rfl, .inl hturn⟩

/-- Settles O15: NOP's meaning is the state it is given, by definition (43_control.md R150). -/
theorem nopHasNoEffect : Obligations.NopHasNoEffect := by
  unfold Obligations.NopHasNoEffect
  exact fun _ => rfl

/-- Settles O16: CLEAR's meaning is the two writes of STATUS's stored fields, by definition (43_control.md R151). -/
theorem clearResetsErrAndDoneOnly : Obligations.ClearResetsErrAndDoneOnly := by
  unfold Obligations.ClearResetsErrAndDoneOnly
  exact fun _ => rfl

end Sys2Proof.Machine

/-! SUPPORT. What is recorded in ERR, and that nothing else depends on it (60_exceptions.md R160 to R165). -/

namespace Sys2Proof.Machine

/-- The divisor is 0 exactly where both its registers are (30_encoding.md R77). -/
theorem divisorD_eq_zero_iff {s : State} : divisorD s = 0 ↔ s.dv.l0 = 0 ∧ s.dv.l1 = 0 := by
  rw [divisorD, join2, ← BitVec.toNat_inj, ← BitVec.toNat_inj]
  change _ ↔ s.dv.l0.toNat = 0 ∧ s.dv.l1.toNat = 0
  omega

theorem cmdWrite_encode (i : Instr) (s : State) : cmdWrite (encode i) s = exec i s := by
  rw [cmdWrite, decode_encode]

theorem cmdWrite_illegal {w : Word} (h : 4 < w.toNat) (s : State) : cmdWrite w s = .next (rejectIllegal s) := by
  rw [cmdWrite, decode_eq_illegal_iff.mpr h]

/-- What the checks of a compute command record where no error is held, in their order (60_exceptions.md R165). -/
theorem dispatchCompute_err {divides : Bool} {accept : State → State} (haccept : ∀ u, (accept u).err = u.err) {s : State}
    (he : s.err = 0) : (dispatchCompute divides accept s).err =
      if s.phase ≠ .idle then 5 else if divides = true ∧ divisorD s = 0 then 1 else 0 := by
  have hraise (e : ErrorCode) : (raise e (setDone false s)).err = e.code := (raise_err e _).trans (if_pos he)
  rcases dispatchCompute_cases divides accept s with ⟨hbusy, e⟩ | ⟨hidle, hdiv, hz, e⟩ | ⟨hidle, hd, e⟩ <;> rw [e]
  · rw [if_pos hbusy]
    exact hraise .busyReject
  · rw [if_neg (not_not.mpr hidle), if_pos ⟨hdiv, hz⟩]
    exact hraise .invalidDivisor
  · rw [if_neg (not_not.mpr hidle), if_neg fun ⟨hdiv, hz⟩ => hd hdiv hz]
    exact (haccept _).trans he

/-- What a command records where no error is held, by its match value (60_exceptions.md R165). -/
theorem exec_err {i : Instr} {s t : State} (h : exec i s = .next t) (he : s.err = 0) : t.err =
    if (cmdMatch i = 1 ∨ cmdMatch i = 2 ∨ cmdMatch i = 3) ∧ s.phase ≠ .idle then 5
    else if (cmdMatch i = 2 ∨ cmdMatch i = 3) ∧ s.dv.l0 = 0 ∧ s.dv.l1 = 0 then 1
    else 0 := by
  simp only [← divisorD_eq_zero_iff]
  cases i with
  | nop =>
    cases h
    exact he
  | mul =>
    cases h
    simpa [cmdMatch] using dispatchCompute_err (divides := false) (accept := mulAccept) (fun _ => rfl) he
  | div =>
    cases h
    simpa [cmdMatch] using dispatchCompute_err (divides := true) (accept := divAccept) (fun _ => rfl) he
  | muldiv =>
    cases h
    simpa [cmdMatch] using dispatchCompute_err (divides := true) (accept := muldivAccept) (fun _ => rfl) he
  | clear =>
    cases h
    rfl

/-- Settles O22: an illegal word is rejected before any other check, and the commands' own checks come in their order. -/
theorem cmdWriteChecksInOrder : Obligations.CmdWriteChecksInOrder := by
  unfold Obligations.CmdWriteChecksInOrder
  intro w s
  obtain ⟨t, ht⟩ := cmdWrite_next w s
  have heff := cmdWrite_effect ht
  have hclear : decode w = .command .clear ↔ w.toNat = 4 := by
    rw [decode_eq_command_iff, ← BitVec.toNat_inj, encode_toNat, cmdMatch]
  refine ⟨t, ht, fun he hw => heff.keepsHeldErr (hw ∘ hclear.mp) he, fun he => ?_, fun hw => ?_⟩
  · by_cases hw : 4 < w.toNat
    · cases (cmdWrite_illegal hw s).symm.trans ht
      rw [if_pos hw, rejectIllegal_eq, setErr_err, if_pos he]
    · obtain ⟨i, rfl⟩ := exists_encode_of_toNat_le (Nat.le_of_not_lt hw)
      rw [if_neg hw, encode_toNat]
      exact exec_err ((cmdWrite_encode i s).symm.trans ht) he
  · rw [hclear.mpr hw] at heff
    exact congrArg State.err heff.eq_of_clear

section HeldError

variable (e : BitVec 4)

/-- But for ERR, an error's record is no change (60_exceptions.md R163). -/
theorem clearErr_raise (c : ErrorCode) (s : State) : clearErr (raise c s) = clearErr s := by
  rw [raise_eq_setErr]
  rfl

/-- A compute command does the same whatever ERR holds, but for ERR, if its acceptance does. -/
theorem clearErr_dispatchCompute_setErr {divides : Bool} {accept : State → State}
    (haccept : ∀ u, accept (setErr e u) = setErr e (accept u)) (s : State) :
    clearErr (dispatchCompute divides accept (setErr e s)) = clearErr (dispatchCompute divides accept s) := by
  rcases dispatchCompute_cases divides accept s with ⟨hbusy, h⟩ | ⟨hidle, rfl, hz, h⟩ | ⟨hidle, hd, h⟩ <;> rw [h]
  · rw [dispatchCompute_busy (s := setErr e s) hbusy, clearErr_raise, clearErr_raise]
    rfl
  · rw [dispatchCompute_zero (s := setErr e s) hidle hz, clearErr_raise, clearErr_raise]
    rfl
  · rw [dispatchCompute_accept (s := setErr e s) hidle hd]
    change clearErr (accept (setErr e (setDone false s))) = _
    rw [haccept]
    rfl

theorem exec_setErr (i : Instr) (s : State) :
    ∃ t u, exec i s = .next t ∧ exec i (setErr e s) = .next u ∧ clearErr u = clearErr t := by
  cases i with
  | nop => exact ⟨_, _, rfl, rfl, rfl⟩
  | mul => exact ⟨_, _, rfl, rfl, clearErr_dispatchCompute_setErr e (accept := mulAccept) (fun _ => rfl) s⟩
  | div => exact ⟨_, _, rfl, rfl, clearErr_dispatchCompute_setErr e (accept := divAccept) (fun _ => rfl) s⟩
  | muldiv => exact ⟨_, _, rfl, rfl, clearErr_dispatchCompute_setErr e (accept := muldivAccept) (fun _ => rfl) s⟩
  | clear => exact ⟨_, _, rfl, rfl, rfl⟩

/-- The end of a division writes the same whatever ERR holds, its defensive check included (42_divider.md R137). -/
theorem clearErr_divFinish_setErr (r' : Nat) (q' : Limbs4) (s : State) :
    clearErr (divFinish r' q' (setErr e s)) = clearErr (divFinish r' q' s) := by
  have habandon (u : State) : clearErr (abandonCommand u) = setPhase .idle (clearErr u) :=
    congrArg (setPhase .idle) (clearErr_raise .invariantViolation u)
  unfold divFinish
  rw [setErr_dvr]
  split
  · rw [habandon, habandon]
    rfl
  · rfl

theorem coreStep_setErr {s t : State} (h : coreStep s = .next t) :
    ∃ u, coreStep (setErr e s) = .next u ∧ clearErr u = clearErr t := by
  cases coreStep_effect h with
  | idle hp => exact ⟨setErr e s, by simp only [coreStep, setErr_phase, hp], rfl⟩
  | mulOnly hp => exact ⟨_, coreStep_of_mulOnly (s := setErr e s) hp, rfl⟩
  | mulThenDiv hp => exact ⟨_, coreStep_of_mulThenDiv (s := setErr e s) hp, rfl⟩
  | lastIteration hp hk =>
    exact ⟨_, coreStep_of_lastIteration (s := setErr e s) hp hk,
      clearErr_divFinish_setErr e (nextRem s) (nextQuo s) (iterated s)⟩
  | iteration hp hk => exact ⟨_, coreStep_of_iteration (s := setErr e s) hp hk, rfl⟩

end HeldError

/-- Settles O24: neither a command nor a core step reads ERR but to record an error. -/
theorem heldErrorDoesNotBlockCommands : Obligations.HeldErrorDoesNotBlockCommands := by
  unfold Obligations.HeldErrorDoesNotBlockCommands
  exact fun i s e => ⟨exec_setErr e i s, fun _ h => coreStep_setErr e h⟩

/-- Settles O37: ERR's legality is an invariant; the multiplier's check passes on all latches, and the division's by R139. -/
theorem reachableErrIsNeverInvariantViolation : Obligations.ReachableErrIsNeverInvariantViolation := by
  unfold Obligations.ReachableErrIsNeverInvariantViolation
  intro s hs
  have hinv := coreInv_of_reachable hs
  obtain ⟨_, _, _, herr⟩ := id hinv
  refine ⟨?_, limb3_lt s.opa.isLt s.opb.isLt, fun hp => (dividing_of_coreInv hinv hp).nextRem_lt⟩
  exact herr.imp (congrArg BitVec.toNat) (.imp (congrArg BitVec.toNat) (.imp (congrArg BitVec.toNat) (congrArg BitVec.toNat)))

/-- Settles O23: every error is recorded by the one write of `raise_eq_setErr`, with its code of R160. -/
theorem firstErrorWins : Obligations.FirstErrorWins := by
  unfold Obligations.FirstErrorWins
  exact fun s => ⟨raise_eq_setErr .invalidDivisor s, raise_eq_setErr .operandOutOfRange s,
    raise_eq_setErr .invariantViolation s, raise_eq_setErr .illegalCommand s, raise_eq_setErr .busyReject s⟩

end Sys2Proof.Machine

/-! SUPPORT. Resets and hazards (70_reset_and_hazards.md): what a reset step leaves, and what a busy core does with a command. -/

namespace Sys2Proof.Machine

theorem step_of_reset {s : State} {rest : List Agent} (h : s.schedule = .reset :: rest) :
    step s = .next (resetCore { s with schedule := rest }) := by
  simp only [step, h]

/-- After a reset step every register reads its reset value, STATUS included (70_reset_and_hazards.md R180). -/
theorem readReg_resetCore (s : State) (r : Reg) : readReg (resetCore s) r = readReg State.reset r := by
  by_cases hr : r = .status
  · rw [hr]
    rfl
  · exact readReg_congr ⟨rfl, rfl, rfl, rfl⟩ ⟨rfl, rfl, rfl⟩ hr

/-- Settles O55: the core is as in the reset state, of which O56 speaks, and the fields beside it are those of `s`. -/
theorem resetStepClearsTheCore : Obligations.ResetStepClearsTheCore := by
  unfold Obligations.ResetStepClearsTheCore
  intro s rest hturn
  obtain ⟨hread, hinternal⟩ := resetStateReadsZero
  obtain ⟨hphase, hopa, hopb, hdvr, hdvd, hracc, hqacc, hcnt⟩ := hinternal
  exact ⟨_, step_of_reset hturn, fun r hr => (readReg_resetCore _ r).trans (hread r hr), rfl, rfl,
    hphase, hopa, hopb, hdvr, hdvd, hracc, hqacc, hcnt, rfl, rfl, rfl, rfl, rfl⟩

/-- A compute command written while busy clears DONE and records code 5 (30_encoding.md R75, 60_exceptions.md R164). -/
theorem dispatchCompute_of_busy {s : State} (hbusy : s.phase ≠ .idle) (divides : Bool) (accept : State → State) :
    dispatchCompute divides accept s = setErr (if s.err = 0 then 5 else s.err) (setDone false s) :=
  (dispatchCompute_busy hbusy).trans (raise_eq_setErr .busyReject (setDone false s))

/-- Settles O20: MUL, DIV and MULDIV make the check for a busy core first, whatever the divisor; NOP and CLEAR make none. -/
theorem computeWhileBusyIsRejected : Obligations.ComputeWhileBusyIsRejected := by
  unfold Obligations.ComputeWhileBusyIsRejected
  intro s i hbusy
  refine ⟨fun hi => ?_, nopHasNoEffect s, clearResetsErrAndDoneOnly s⟩
  rcases hi with rfl | rfl | rfl
  · exact congrArg Host.Outcome.next (dispatchCompute_of_busy hbusy false mulAccept)
  · exact congrArg Host.Outcome.next (dispatchCompute_of_busy hbusy true divAccept)
  · exact congrArg Host.Outcome.next (dispatchCompute_of_busy hbusy true muldivAccept)

end Sys2Proof.Machine

/-! SUPPORT. Table words (30_encoding.md section 1): the word that the bytes of a table word hold, and the step that runs it. -/

namespace Sys2Proof

/-- The bytes of a 64-bit table word hold its low 64 bits. -/
theorem natOfLanes_tableBytes (w : Nat) : natOfLanes (tableBytes 64 w) = w % 2 ^ 64 :=
  (natOfLanes_bytes 8 (w % 2 ^ 64)).trans (Nat.mod_mod w (2 ^ 64))

theorem decodeTableWord_eq_some_iff {nbits w : Nat} {i : Instr} :
    decodeTableWord nbits w = some i ↔ decodeBytes (tableBytes nbits w) = .command i := by
  unfold decodeTableWord
  cases decodeBytes (tableBytes nbits w) <;> simp

/-- The table's reading of a word is the decoder's (30_encoding.md R74). -/
theorem decode_of_decodeTableWord {w : Nat} {i : Instr} (h : decodeTableWord 64 w = some i) :
    decode (BitVec.ofNat 64 (w % 2 ^ 64)) = .command i := by
  obtain ⟨_, hdecode⟩ := decodeBytes_eq_command_iff.mp (decodeTableWord_eq_some_iff.mp h)
  rwa [natOfLanes_tableBytes] at hdecode

namespace Machine

/-- `withFetchWord` makes the write of its word to CMD the next access, before the program and the schedule of `s` (log 4). -/
theorem nextAccess_withFetchWord (s : State) (w : Nat) :
    NextAccess (s.withFetchWord 64 w)
      (.write (s.config.windowBase + 0xA0) 8 (BitVec.ofNat 64 (w % 2 ^ 64))) s.schedule s.program :=
  ⟨rfl, rfl⟩

/-- Settles O2: the word placed is the one the decoder reads from the table word's bytes, and its write is the next access;
taking that access gives the program and the schedule of `s` back. -/
theorem fetchedWordRunsAsTheNextCommand : Obligations.FetchedWordRunsAsTheNextCommand := by
  unfold Obligations.FetchedWordRunsAsTheNextCommand
  intro s w i hw
  exact stepRunsDecodedCommand (s.withFetchWord 64 w) s.schedule s.program _ i (nextAccess_withFetchWord s w)
    (decode_of_decodeTableWord hw)

end Machine

end Sys2Proof
